-- ==== Sys2Proof/Word.lean ====
section
/-! DEFINITION. The words of the block: a cell's byte, a 7-bit group, a command word (spec/00_scope.md R8, R11;
spec/30_encoding.md R81, R90). Everything the spec leaves at an OPEN width (code points, coordinates, counters,
lengths) is a natural number, as R9 says the model takes it. -/

namespace Sys2Proof

/-- The value of one cell: the 8-bit value of the designated channel of one pixel (R8 CHAN_BITS, R36). -/
abbrev Byte := BitVec 8

/-- One group of the bitstream read as a number: ACC (R24) and the elements of TEXT (R35). -/
abbrev Group := BitVec 7

/-- The value written to CMD: format CMD2, one field OP = CMD[1:0] (R29, R90). -/
abbrev CmdWord := BitVec 2

end Sys2Proof
end

