-- ==== Sys2Proof/Syntax.lean ====
section
/-! DEFINITION. The instructions: the four commands of spec/30_encoding.md R93, one constructor per row of
spec/opcode_table.json. A command has no operand field (R90): its operands are in the buffers, the length registers,
CHSEL and the grid. -/

namespace Sys2Proof

/-- The four operations (R3, R93), in the order of their codes. -/
inductive Instr where
  /-- `ENCODE`, unit U1, the source's `textToBits` (R110). -/
  | encode
  /-- `DECODE`, unit U2, the source's `bitsToText` (R118). -/
  | decode
  /-- `EMBED`, unit U3, the source's `embed` (R150). -/
  | embed
  /-- `EXTRACT`, unit U4, the source's `extract` (R162). -/
  | extract
deriving DecidableEq, Repr

end Sys2Proof
end

