-- ==== Sys2Proof/WellFormed.lean ====
section
/-! DEFINITION. What is well formed. An instruction has no operands and no code is reserved (spec/30_encoding.md R97),
so every instruction is; the one check with something to refuse is on the byte that carries a command word. -/

namespace Sys2Proof

/-- Every instruction is well formed: "No command encoding is illegal or reserved" (R97). -/
def Instr.wf : Instr → Bool
  | .encode => true
  | .decode => true
  | .embed => true
  | .extract => true

/-- A byte carries a command word when it is a 2-bit value: CMD has no field but OP = CMD[1:0] (R29, R90), so bits 7:2
of the byte are 0 (notes/assumptions/14.md). -/
def cmdByteWf (b : Byte) : Bool := b.extractLsb' 2 6 == 0#6

end Sys2Proof
end

