-- ==== Sys2Proof/Decode.lean ====
section
/-! DEFINITION. Reading a command word, and after it writing one (spec/30_encoding.md R90, R93). -/

namespace Sys2Proof

/-- Why a byte sequence holds no command. -/
inductive DecodeRefusal where
  /-- There is no byte to read. -/
  | noWord
  /-- The byte is not a 2-bit value (notes/assumptions/14.md). -/
  | notTwoBits (b : Byte)
deriving DecidableEq, Repr

/-- The opcode map of R93. Total: all four values are operations (R97). -/
def decodeCmd (c : CmdWord) : Instr :=
  if c = 0b00#2 then .encode
  else if c = 0b01#2 then .decode
  else if c = 0b10#2 then .embed
  else .extract

/-- Reads one command from the front of a byte sequence, one byte a command word; answers the bytes after it. -/
def decodeBytes : List Byte → Except DecodeRefusal (Instr × List Byte)
  | [] => .error .noWord
  | b :: rest => if cmdByteWf b then .ok (decodeCmd (b.extractLsb' 0 2), rest) else .error (.notTwoBits b)

/-- The bytes of a word numbered as spec/opcode_table.json numbers it: the first byte holds bits 7:0. A command is at
least one byte, and its bits above `nbits` are 0. -/
def tableBytes (nbits w : Nat) : List Byte :=
  (List.range (max 1 ((nbits + 7) / 8))).map fun k => BitVec.ofNat 8 ((w % 2 ^ nbits) >>> (8 * k))

/-- The instruction the decoder reads from the word `w` of an opcode-table row of `nbits` bits. -/
def decodeTableWord (nbits w : Nat) : Option Instr :=
  match decodeBytes (tableBytes nbits w) with
  | .ok (i, _) => some i
  | .error _ => none

/-- The command word of an operation: the OP column of R93. -/
def encode : Instr → CmdWord
  | .encode => 0b00#2
  | .decode => 0b01#2
  | .embed => 0b10#2
  | .extract => 0b11#2

/-- The byte that carries an operation's command word, bits 7:2 zero. -/
def encodeBytes (i : Instr) : List Byte := [(0#6 ++ encode i : BitVec 8)]

end Sys2Proof
end

