-- ==== Sys2Proof/Config.lean ====
section
/-! DEFINITION. The constants of spec/00_scope.md R8, the two parameters R9 fixes by decision, and the FREE VALUES:
constants without a body, of which Lean can prove no value, for what the spec leaves open. -/

namespace Sys2Proof.Config

/-- SENTINEL_LEN (R8, R82): how many `1` bits ENCODE appends. -/
@[simp] def sentinelLen : Nat := 13

/-- MAX_CODE (R8, R111): the largest code point ENCODE keeps. -/
@[simp] def maxCode : Nat := 126

/-- TERMINATOR (R8, R120): the group value that ends decoding. -/
@[simp] def terminator : Group := 127#7

/-- CHAN_MAX (R8, R153): the cell value at which the flip goes down. -/
@[simp] def chanMax : Byte := 255#8

/-- PRESERVE_LAST_BIT_DEFECT (R9, D13, B8): EMBED stops one bit short. -/
@[simp] def preserveLastBitDefect : Bool := true

/-- WRITE_ON_MATCH (R9, R154, D11): whether EMBED issues a set for a cell whose parity already matches. -/
@[simp] def writeOnMatch : Bool := false

/-- FREE VALUE (B7, B12; notes/assumptions/7.md): element `i` of PAYLOAD where the host loaded none, in the epoch the
first argument counts. -/
opaque unwrittenPayload : Nat → Nat → Nat

/-- FREE VALUE (B7, B12; notes/assumptions/7.md): element `i` of BITS where neither ENCODE nor the host wrote one. -/
opaque unwrittenBit : Nat → Nat → Bool

/-- FREE VALUE (R231, B13; notes/assumptions/9.md): whether the reset that the argument counts finds the cell at the
pointer already written. -/
opaque resetFindsCellWritten : Nat → Bool

end Sys2Proof.Config
end

