-- ==== Sys2Proof/Machine/State.lean ====
section
/-! DEFINITION. The state: the block's registers, flags and buffers (spec/10_state.md R20), the provider's pixel grid
(R36), and the environment the step reads (the host's next actions) or writes (the list of grid transactions). -/

namespace Sys2Proof.Machine

/-- PHASE (R26, D8): the state of the sequencer. The source's three terminal states are `done` together with OUTCOME. -/
inductive Phase where
  | idle | scanning | readOrWrite | advance | done
deriving DecidableEq, Repr

/-- OUTCOME (R27, R103, R204, D8): the result of the last finished operation. -/
inductive Result where
  | none | success | capacityExceeded | notFound
deriving DecidableEq, Repr

/-- One grid transaction (R14, R31): the selector that accompanies it, the coordinates, the value moved. -/
inductive Access where
  /-- `GridGet(x, y)` answered `v`. -/
  | get (chsel x y : Nat) (v : Byte)
  /-- `GridSet(x, y, v)`. -/
  | set (chsel x y : Nat) (v : Byte)
deriving DecidableEq, Repr

/-- One action of the host, or of the image collaborator behind the provider, on the block (R42, R187, R232; the host
program of R100 is a list of these). The step takes them from the front of `State.host`. -/
inductive HostAction where
  /-- A write to CMD (R29): the request to start an operation. -/
  | writeCmd (c : CmdWord)
  /-- A write to STATUS, which has no effect (R30). -/
  | writeStatus (v : BitVec 8)
  /-- `CHSEL <- v` (R31). -/
  | writeChsel (v : Nat)
  /-- `PAYLOAD <- p`: the elements from index 0 on (R33). -/
  | writePayload (p : List Nat)
  /-- `PAYLOAD_LEN <- n` (R32). -/
  | writePayloadLen (n : Nat)
  /-- `BITS <- b`: the elements from index 0 on (R34, D24). -/
  | writeBits (b : List Bool)
  /-- `BITS_LEN <- n` (R32). -/
  | writeBitsLen (n : Nat)
  /-- The image collaborator presents a grid of `w` columns and `h` rows, every cell 0 (R232, R214). -/
  | supplyGrid (w h : Nat)
  /-- Channel `ch` of pixel (x, y) is given the value `v` from outside the block (R42: the host may write cells between
  operations). -/
  | writeCell (ch x y : Nat) (v : Byte)
  /-- The host does nothing while the sequencer takes one transition. -/
  | tick
  /-- The host reads STATUS until no operation runs (R187 step 4). -/
  | awaitDone
  /-- Reset (R230, R231). -/
  | reset
deriving DecidableEq, Repr

/-- The pixel grid and its provider (R36, R50): outside the block, reached through `GridGet` and `GridSet`. -/
structure Grid where
  /-- GRID_W. -/
  w : Nat
  /-- GRID_H. -/
  h : Nat
  /-- The channel values, sparse and in canonical form (`Memory.wf`), keyed by channel, column and row. -/
  cells : List Host.Cell
  /-- Which channel each selector designates: the provider's own, never the block's (R31, B11). -/
  selectors : List (Nat × Nat)
deriving DecidableEq, Repr

/-- The whole state. Widths the spec leaves OPEN are naturals (R9). CMD stores nothing (R29, R40) and STATUS is a view
(`State.status`), so neither is a field. -/
structure State where
  /-- X, the column of the scan pointer (R21). -/
  x : Nat
  /-- Y, its row (R21). -/
  y : Nat
  /-- IDX, the bits written (EMBED) or cells read (EXTRACT) so far (R22). -/
  idx : Nat
  /-- ACC, the group being collected (R24). -/
  acc : Group
  /-- CNT, how many bits ACC holds (R25). -/
  cnt : BitVec 3
  /-- PHASE (R26). -/
  phase : Phase
  /-- OUTCOME (R27). -/
  outcome : Result
  /-- OP, the operation running or last run (R28). -/
  op : Instr
  /-- CHSEL, the channel selector (R31). -/
  chsel : Nat
  /-- PAYLOAD: the elements the host loaded (R33). -/
  payload : List Nat
  /-- PAYLOAD_LEN (R32). -/
  payloadLen : Nat
  /-- BITS: the elements ENCODE or the host wrote (R34). -/
  bits : List Bool
  /-- BITS_LEN (R32). -/
  bitsLen : Nat
  /-- TEXT: the characters decoded (R35). -/
  text : List Group
  /-- TEXT_LEN (R32). -/
  textLen : Nat
  /-- The provider's grid (R36). -/
  grid : Grid
  /-- The environment's: what the host does next, first action first (notes/assumptions/2.md). -/
  host : List HostAction
  /-- The model's own: the grid transactions issued, latest first; nothing reads it (notes/assumptions/12.md). -/
  log : List Access
  /-- The model's own: counts the free contents PAYLOAD's unwritten elements have had (notes/assumptions/7.md). -/
  freePayload : Nat
  /-- The model's own: the same for BITS (notes/assumptions/7.md). -/
  freeBits : Nat
  /-- The model's own: counts resets, for the free value of an interrupted write (notes/assumptions/9.md). -/
  freeReset : Nat
deriving DecidableEq, Repr

/-- What stops the machine. The block itself has no fault (R200): both cases lie outside what the spec lets happen. -/
inductive Fault where
  /-- A grid access outside `x < GRID_W`, `y < GRID_H`: no such cell exists (R14, R36). Raised by `gridGet`, `gridSet`
  and the host action `writeCell`. Safe: the block never issues one (R55). -/
  | outsideGrid
  /-- PHASE is SCANNING or READ_OR_WRITE while OP is ENCODE or DECODE, which have no such phase (R183). Raised by
  `scanning` and `readOrWrite`. Safe: no run reaches it. -/
  | noScanningOperation
deriving DecidableEq, Repr

/-- What the model gives no meaning. -/
inductive Refusal where
  /-- An instruction without a meaning, by its mnemonic. Raised by no arm of `exec` now. Safe. -/
  | notModelled (mnemonic : String)
  /-- The host writes an operand, or the grid changes from outside, while an operation runs: "a model gives such a run
  no meaning" (R64, B1). Raised by `hostAct`. Safe. -/
  | exclusiveBorrow
deriving DecidableEq, Repr

/-- The machine right after reset (R40, R230, D9) with a provider that presents no cell yet, a host that does nothing
and no transaction issued. CHSEL, which R40 leaves unspecified, is 0 (notes/assumptions/4.md). -/
def State.reset : State where
  x := 0
  y := 0
  idx := 0
  acc := 0#7
  cnt := 0#3
  phase := .idle
  outcome := .none
  op := .encode
  chsel := 0
  payload := []
  payloadLen := 0
  bits := []
  bitsLen := 0
  text := []
  textLen := 0
  grid := { w := 0, h := 0, cells := [], selectors := [] }
  host := []
  log := []
  freePayload := 0
  freeBits := 0
  freeReset := 0

end Sys2Proof.Machine
end

