-- ==== Sys2Proof/Machine/Flags.lean ====
section
/-! DEFINITION. The flags PHASE, OUTCOME and OP as codes, and the STATUS register made of them
(spec/10_state.md R26 to R30). -/

namespace Sys2Proof.Machine

/-- The code of PHASE (R26). -/
def Phase.code : Phase → BitVec 3
  | .idle => 0
  | .scanning => 1
  | .readOrWrite => 2
  | .advance => 3
  | .done => 4

/-- The code of OUTCOME (R27, R204). -/
def Result.code : Result → BitVec 2
  | .none => 0
  | .success => 1
  | .capacityExceeded => 2
  | .notFound => 3

/-- STATUS as the host reads it (R30): bit 7 zero, OP, OUTCOME, PHASE. -/
def State.status (s : State) : BitVec 8 := 0#1 ++ encode s.op ++ s.outcome.code ++ s.phase.code

/-- PHASE is IDLE or DONE: a command is accepted (R181). -/
abbrev State.Ready (s : State) : Prop := s.phase = .idle ∨ s.phase = .done

/-- PHASE is SCANNING, READ_OR_WRITE or ADVANCE: an operation runs (R182, R184). -/
abbrev State.Running (s : State) : Prop := s.phase = .scanning ∨ s.phase = .readOrWrite ∨ s.phase = .advance

end Sys2Proof.Machine
end

