-- ==== Sys2Proof/Machine/Operands.lean ====
section
/-! DEFINITION. Operands: the buffers read through their length registers (spec/10_state.md R32 to R34), bits to and
from code points (spec/30_encoding.md R81, R84 to R86), and the parity flip (spec/41_carrier_codec.md R153). -/

namespace Sys2Proof.Machine

/-- PAYLOAD[i]: what the host loaded, and a free value where it loaded nothing (B7). -/
def State.payloadAt (s : State) (i : Nat) : Nat := s.payload.getD i (Config.unwrittenPayload s.freePayload i)

/-- PAYLOAD as the sequence of PAYLOAD_LEN characters that ENCODE reads (R33). -/
def State.payloadSeq (s : State) : List Nat := (List.range s.payloadLen).map s.payloadAt

/-- BITS[i]: what ENCODE or the host wrote, and a free value where nothing was written (B7). -/
def State.bitAt (s : State) (i : Nat) : Bool := s.bits.getD i (Config.unwrittenBit s.freeBits i)

/-- BITS as the sequence of BITS_LEN bits that DECODE and EMBED read (R34). -/
def State.bitsSeq (s : State) : List Bool := (List.range s.bitsLen).map s.bitAt

/-- `for j in 6 downto 0: BITS.append(c[j])` (R84, R112): the code point's seven bits, most significant first. -/
def appendGroup (bits : List Bool) (c : Nat) : List Bool :=
  [6, 5, 4, 3, 2, 1, 0].foldl (fun bs j => bs ++ [c.testBit j]) bits

/-- One turn of ENCODE's loop (R110): a character above 126 is skipped, compared as a whole value (R111). -/
def appendChar (bits : List Bool) (c : Nat) : List Bool :=
  if c > Config.maxCode then bits else appendGroup bits c

/-- `for s in 1 .. 13: BITS.append(1)` (R113). -/
def appendSentinel (bits : List Bool) : List Bool :=
  (List.range Config.sentinelLen).foldl (fun bs _ => bs ++ [true]) bits

/-- `{ACC[5:0], b}`: the bit shifted in at the least significant end (R24, R119). -/
def shiftIn (acc : Group) (b : Bool) : Group := acc.extractLsb' 0 6 ++ BitVec.ofBool b

/-- `v mod 2`, the bit a cell carries (R86). -/
def parity (v : Byte) : Bool := v.getLsbD 0

/-- `Flip(v, b)` (R153): one up where the parity differs, but one down at 255. -/
def parityFlip (v : Byte) (b : Bool) : Byte :=
  if parity v = b then v
  else if v = Config.chanMax then v - 1
  else v + 1

/-- The count of written bits at which EMBED stops (R156): `L − 1`, or `L` were the defect not preserved (B8). It is
asked only of `L ≥ 1` (R142 e). -/
def stopCount (len : Nat) : Nat := if Config.preserveLastBitDefect then len - 1 else len

end Sys2Proof.Machine
end

