-- ==== Sys2Proof/Machine/Ops.lean ====
section
/-! DEFINITION. The operations the meanings share: the cells' memory, `GridGet` and `GridSet` (spec/00_scope.md R14,
spec/20_memory.md R50 to R52), accepting a command (spec/42_sequencing.md R181, R182) and `finish` (R186), which is
this block's form of raising an exception and of returning from one (R15, spec/60_exceptions.md R200, R213). -/

namespace Sys2Proof.Machine

/-! ## The memory of channel values -/

/-- What an unlisted cell reads as (notes/assumptions/6.md). -/
def Memory.unlisted : Byte := 0

/-- The canonical form: keys strictly rising, no entry equal to what an unlisted key reads as. -/
abbrev Memory.wf (m : List Host.Cell) : Prop :=
  (m.map Prod.fst).Pairwise (· < ·) ∧ ∀ c ∈ m, c.2 ≠ Memory.unlisted

/-- The value at a key. -/
def Memory.read : List Host.Cell → Nat → Byte
  | [], _ => Memory.unlisted
  | (k, u) :: m, a => if k = a then u else Memory.read m a

/-- The entry that holds `v` at `a`, none where an unlisted key reads as `v`. -/
def Memory.entry (a : Nat) (v : Byte) : List Host.Cell := if v = Memory.unlisted then [] else [(a, v)]

/-- Stores `v` at the key `a`, keeping the canonical form. -/
def Memory.write : List Host.Cell → Nat → Byte → List Host.Cell
  | [], a, v => Memory.entry a v
  | (k, u) :: m, a, v =>
    if k = a then Memory.entry a v ++ m
    else if a < k then Memory.entry a v ++ (k, u) :: m
    else (k, u) :: Memory.write m a v

/-! ## The grid -/

/-- The memory key of channel `ch` of pixel (x, y): different pixels or channels have different keys
(notes/assumptions/6.md). -/
def cellKey (ch x y : Nat) : Nat := Nat.pair ch (Nat.pair x y)

/-- The address (x, y) exists (R36). -/
abbrev Grid.Has (g : Grid) (x y : Nat) : Prop := x < g.w ∧ y < g.h

/-- The channel a selector designates: the provider's mapping, each selector its own number where the provider lists
none (B11, notes/assumptions/5.md). -/
def Grid.channelOf (g : Grid) (chsel : Nat) : Nat := (g.selectors.lookup chsel).getD chsel

/-- The value of channel `ch` of pixel (x, y). -/
def Grid.read (g : Grid) (ch x y : Nat) : Byte := Memory.read g.cells (cellKey ch x y)

/-- Gives channel `ch` of pixel (x, y) the value `v`. -/
def Grid.write (g : Grid) (ch x y : Nat) (v : Byte) : Grid :=
  { g with cells := Memory.write g.cells (cellKey ch x y) v }

/-- The source's capacity, `width × height`, an exact product (R57, R142 a). -/
def Grid.capacity (g : Grid) : Nat := g.w * g.h

/-- The designated channel (R31). -/
def State.channel (s : State) : Nat := s.grid.channelOf s.chsel

/-- The cell (x, y): the value of the designated channel (R36). -/
def State.cell (s : State) (x y : Nat) : Byte := s.grid.read s.channel x y

/-- Notes a grid transaction. -/
def State.record (s : State) (a : Access) : State := { s with log := a :: s.log }

/-- Gives the cell (x, y) the value `v`. -/
def State.putCell (s : State) (x y : Nat) (v : Byte) : State := { s with grid := s.grid.write s.channel x y v }

/-- `GridGet(x, y)` (R14, R51): the cell's value, and the transaction noted; nothing where there is no such cell. -/
def gridGet (s : State) (x y : Nat) : Option (Byte × State) :=
  if s.grid.Has x y then some (s.cell x y, s.record (.get s.chsel x y (s.cell x y))) else none

/-- `GridSet(x, y, v)` (R14, R52): stores the value and notes the transaction; nothing where there is no such cell. -/
def gridSet (s : State) (x y : Nat) (v : Byte) : Option State :=
  if s.grid.Has x y then some ((s.putCell x y v).record (.set s.chsel x y v)) else none

/-- The end of a step that visits a pixel: a fault where the pixel does not exist. -/
def orFault : Option State → Host.Outcome State Fault Refusal
  | some t => .next t
  | none => .fault .outsideGrid

/-! ## Accepting a command, and ending an operation -/

/-- `finish o` (R186): `OUTCOME <- o; PHASE <- DONE`. Every outcome, the two errors among them, is raised by it; it saves
nothing and sends control nowhere (R213), and there is no return from it but the next command (R214). -/
def finish (s : State) (o : Result) : State := { s with outcome := o, phase := .done }

/-- Acceptance (R181): in IDLE or DONE `OP <- CMD[1:0]` and the operation's accept rule runs; while an operation runs the
write is ignored and changes nothing (R182). -/
def accept (i : Instr) (rule : State → State) (s : State) : Host.Outcome State Fault Refusal :=
  if s.Ready then .next (rule { s with op := i }) else .next s

/-! ## Reset -/

/-- Whether the cell at the pointer is one an interrupted EMBED would still write (R231, notes/assumptions/9.md). -/
abbrev State.MidWrite (s : State) : Prop :=
  s.op = .embed ∧ (s.phase = .scanning ∨ s.phase = .readOrWrite) ∧ s.idx < stopCount s.bitsLen

/-- The registers, flags and buffers at their reset values (R40); the provider, the host and the list of transactions
are not the block's and stay; what the buffers hold beyond their lengths is free again (B12). -/
def resetBlock (s : State) : State :=
  { State.reset with
    grid := s.grid
    host := s.host
    log := s.log
    freePayload := s.freePayload + 1
    freeBits := s.freeBits + 1
    freeReset := s.freeReset + 1 }

end Sys2Proof.Machine
end

