-- ==== Sys2Proof/Machine/BitstreamCodec.lean ====
section
/-! DEFINITION. The Bitstream Codec, units U1 and U2 (spec/40_bitstream_codec.md): ENCODE and DECODE, each one transition
from the accepted command to DONE (spec/42_sequencing.md R183), and the consumption rule EXTRACT shares. -/

namespace Sys2Proof.Machine

/-- The bitstream ENCODE makes of a payload: the loop of R110, then the sentinel. -/
def encodeLoop (payload : List Nat) : List Bool := appendSentinel (payload.foldl appendChar [])

/-- The accept rule of ENCODE (R110): `BITS`, `BITS_LEN`, `finish SUCCESS`. What BITS holds beyond the new length is free
again (B7). -/
def encodeRule (s : State) : State :=
  finish
    { s with
      bits := encodeLoop s.payloadSeq
      bitsLen := (encodeLoop s.payloadSeq).length
      freeBits := s.freeBits + 1 }
    .success

/-- ENCODE (R110). -/
def execEncode (s : State) : Host.Outcome State Fault Refusal := accept .encode encodeRule s

/-- Writes the decoder's registers and its output. -/
def State.setDecoder (s : State) (acc : Group) (cnt : BitVec 3) (text : List Group) : State := { s with acc, cnt, text }

/-- `Consume(b)` (R119): the state after it, and whether the terminator was seen. CNT is 0 after every completed group, the
terminator's among them (R25, notes/assumptions/8.md). -/
def consume (s : State) (b : Bool) : State × Bool :=
  if (s.cnt + 1).toNat < 7 then (s.setDecoder (shiftIn s.acc b) (s.cnt + 1) s.text, false)
  else if shiftIn s.acc b = Config.terminator then (s.setDecoder (shiftIn s.acc b) 0#3 s.text, true)
  else (s.setDecoder 0#7 0#3 (s.text ++ [shiftIn s.acc b]), false)

/-- Consumes bits until the terminator was seen or none is left (R118, R120): no bit after the terminator group is
read. -/
def consumeAll : State → List Bool → State × Bool
  | s, [] => (s, false)
  | s, b :: bs => if (consume s b).2 then ((consume s b).1, true) else consumeAll (consume s b).1 bs

/-- `TEXT <- []; ACC <- 0; CNT <- 0` (R41, R118, R164). -/
def clearDecoder (s : State) : State := s.setDecoder 0#7 0#3 []

/-- `TEXT_LEN <- len(TEXT); finish SUCCESS` (R118, R166). -/
def finishFound (s : State) : State := finish { s with textLen := s.text.length } .success

/-- `TEXT_LEN <- 0; finish NOT_FOUND`, the characters collected withdrawn (R122, B6). -/
def finishNotFound (s : State) : State := finish { s with text := [], textLen := 0 } .notFound

/-- The accept rule of DECODE (R118). -/
def decodeRule (s : State) : State :=
  if (consumeAll (clearDecoder s) s.bitsSeq).2 then finishFound (consumeAll (clearDecoder s) s.bitsSeq).1
  else finishNotFound (consumeAll (clearDecoder s) s.bitsSeq).1

/-- DECODE (R118). -/
def execDecode (s : State) : Host.Outcome State Fault Refusal := accept .decode decodeRule s

end Sys2Proof.Machine
end

