-- ==== Sys2Proof/Machine/CarrierCodec.lean ====
section
/-! DEFINITION. The Carrier Codec, units U3 and U4 (spec/41_carrier_codec.md), in the step form: the accept rules of EMBED
and EXTRACT, and their Scanning, ReadOrWrite and Advance steps. -/

namespace Sys2Proof.Machine

/-- `X <- 0; Y <- 0; IDX <- 0; PHASE <- SCANNING` (R41, R157, R164). -/
def startScan (s : State) : State := { s with x := 0, y := 0, idx := 0, phase := .scanning }

/-- The pointer has passed the last column, or there is no cell at all (R157, R164, R165). -/
abbrev State.Exhausted (s : State) : Prop := s.grid.h = 0 ∨ s.x = s.grid.w

/-- Advance, both operations (R23, R159). -/
def advance (s : State) : State :=
  if s.y + 1 < s.grid.h then { s with y := s.y + 1, phase := .scanning }
  else { s with y := 0, x := s.x + 1, phase := .scanning }

/-! ## EMBED -/

/-- The accept rule of EMBED (R157): the capacity check on the whole length, before anything else (R151, R210). -/
def embedRule (s : State) : State :=
  if s.grid.capacity < s.bitsLen then finish s .capacityExceeded else startScan s

/-- EMBED (R150): acceptance; the steps below run it to DONE. -/
def execEmbed (s : State) : Host.Outcome State Fault Refusal := accept .embed embedRule s

/-- The Scanning step of EMBED (R157). -/
def scanEmbed (s : State) : State :=
  if s.bitsLen = 0 ∨ s.idx = stopCount s.bitsLen then finish s .success
  else if s.Exhausted then finish s .success
  else { s with phase := .readOrWrite }

/-- Stores the flipped value `v'` in (x, y) where it differs from the value `v` read (R154); on a match there is a set
only with WRITE_ON_MATCH (D11). -/
def writeBack (s : State) (x y : Nat) (v v' : Byte) : Option State :=
  if v' ≠ v ∨ Config.writeOnMatch = true then gridSet s x y v' else some s

/-- EMBED's visit of the pixel (x, y): one get, the flip towards BITS[IDX], at most one set, and the bit counted (R58,
R152 to R154, R158). -/
def visitEmbed (s : State) (x y : Nat) : Option State :=
  (gridGet s x y).bind fun r =>
    (writeBack r.2 x y r.1 (parityFlip r.1 (s.bitAt s.idx))).map fun t => { t with idx := t.idx + 1 }

/-- The ReadOrWrite step of EMBED (R158). -/
def readOrWriteEmbed (s : State) : Host.Outcome State Fault Refusal :=
  orFault ((visitEmbed s s.x s.y).map fun t => { t with phase := .advance })

/-! ## EXTRACT -/

/-- The accept rule of EXTRACT (R164). -/
def extractRule (s : State) : State := startScan (clearDecoder s)

/-- EXTRACT (R162): acceptance; the steps below run it to DONE. -/
def execExtract (s : State) : Host.Outcome State Fault Refusal := accept .extract extractRule s

/-- The Scanning step of EXTRACT (R164). -/
def scanExtract (s : State) : State :=
  if s.Exhausted then finishNotFound s else { s with phase := .readOrWrite }

/-- EXTRACT's visit of the pixel (x, y): one get, the cell counted, its parity consumed; whether the terminator was
seen (R163, R166). -/
def visitExtract (s : State) (x y : Nat) : Option (State × Bool) :=
  (gridGet s x y).map fun r => consume { r.2 with idx := r.2.idx + 1 } (parity r.1)

/-- What follows EXTRACT's visit: SUCCESS at the terminator, else the Advance step (R166). -/
def afterConsume (r : State × Bool) : State :=
  if r.2 then finishFound r.1 else { r.1 with phase := .advance }

/-- The ReadOrWrite step of EXTRACT (R166). -/
def readOrWriteExtract (s : State) : Host.Outcome State Fault Refusal :=
  orFault ((visitExtract s s.x s.y).map afterConsume)

end Sys2Proof.Machine
end

