-- ==== Sys2Proof/Machine/Sequencer.lean ====
section
/-! DEFINITION. The sequencer: the transitions of PHASE that need no host (spec/42_sequencing.md R180, R184). -/

namespace Sys2Proof.Machine

/-- The Scanning step, by OP (R141). -/
def scanning (s : State) : Host.Outcome State Fault Refusal :=
  match s.op with
  | .encode => .fault .noScanningOperation
  | .decode => .fault .noScanningOperation
  | .embed => .next (scanEmbed s)
  | .extract => .next (scanExtract s)

/-- The ReadOrWrite step, by OP (R141). -/
def readOrWrite (s : State) : Host.Outcome State Fault Refusal :=
  match s.op with
  | .encode => .fault .noScanningOperation
  | .decode => .fault .noScanningOperation
  | .embed => readOrWriteEmbed s
  | .extract => readOrWriteExtract s

/-- One transition of the sequencer (R180). In IDLE and DONE the block holds its registers and waits (R218, R230;
notes/assumptions/3.md). -/
def sequencer (s : State) : Host.Outcome State Fault Refusal :=
  match s.phase with
  | .idle => .next s
  | .scanning => scanning s
  | .readOrWrite => readOrWrite s
  | .advance => .next (advance s)
  | .done => .next s

end Sys2Proof.Machine
end

