-- ==== Sys2Proof/Machine/HostPort.lean ====
section
/-! DEFINITION. The host's side (spec/42_sequencing.md R187, spec/10_state.md R42): its actions on the block and on the
grid, reset, and what it may read. -/

namespace Sys2Proof.Machine

/-- A change of an operand, of CHSEL or of the grid from outside: done in IDLE and DONE; while an operation runs such a
run has no meaning (R64, R240, B1; notes/assumptions/10.md). -/
def hostAct (s : State) (change : State → Host.Outcome State Fault Refusal) : Host.Outcome State Fault Refusal :=
  if s.Ready then change s else .refused .exclusiveBorrow

/-- Channel `ch` of pixel (x, y) is given a value from outside: a fault where there is no such pixel. -/
def hostWriteCell (ch x y : Nat) (v : Byte) (s : State) : Host.Outcome State Fault Refusal :=
  if s.grid.Has x y then .next { s with grid := s.grid.write ch x y v } else .fault .outsideGrid

/-- Reset (R230). One that interrupts an EMBED before the cell at the pointer is known to be written finds it written or
not, as a free value says (R231, B13; notes/assumptions/9.md). -/
def resetAct (s : State) : State :=
  if s.MidWrite ∧ Config.resetFindsCellWritten s.freeReset = true then resetBlock ((visitEmbed s s.x s.y).getD s)
  else resetBlock s

/-- One action of the host, `rest` being what it does after it. -/
def hostStep (a : HostAction) (rest : List HostAction) (s : State) : Host.Outcome State Fault Refusal :=
  match a with
  | .writeCmd c => exec (decodeCmd c) { s with host := rest }
  | .writeStatus _ => .next { s with host := rest }
  | .writeChsel v => hostAct { s with host := rest } fun t => .next { t with chsel := v }
  | .writePayload p =>
    hostAct { s with host := rest } fun t => .next { t with payload := p, freePayload := t.freePayload + 1 }
  | .writePayloadLen n => hostAct { s with host := rest } fun t => .next { t with payloadLen := n }
  | .writeBits b => hostAct { s with host := rest } fun t => .next { t with bits := b, freeBits := t.freeBits + 1 }
  | .writeBitsLen n => hostAct { s with host := rest } fun t => .next { t with bitsLen := n }
  | .supplyGrid w h => hostAct { s with host := rest } fun t => .next { t with grid := { t.grid with w, h, cells := [] } }
  | .writeCell ch x y v => hostAct { s with host := rest } (hostWriteCell ch x y v)
  | .tick => sequencer { s with host := rest }
  | .awaitDone => if s.Ready then .next { s with host := rest } else sequencer s
  | .reset => .next (resetAct { s with host := rest })

/-! ## What the host reads -/

/-- TEXT and TEXT_LEN's worth of it: valid only at DONE after a DECODE or EXTRACT with SUCCESS (R35, R187 step 5, R249). -/
def State.hostText (s : State) : Option (List Group) :=
  if s.phase = .done ∧ (s.op = .decode ∨ s.op = .extract) ∧ s.outcome = .success then some (s.text.take s.textLen)
  else none

/-- OUTCOME, valid only while PHASE = DONE (R27, R249). -/
def State.hostOutcome (s : State) : Option Result := if s.phase = .done then some s.outcome else none

/-- A cell as the host may read it: not while an operation runs (R64), and only where there is one. -/
def State.hostCell (s : State) (ch x y : Nat) : Option Byte :=
  if s.Ready ∧ s.grid.Has x y then some (s.grid.read ch x y) else none

end Sys2Proof.Machine
end

