-- ==== Sys2Proof/Machine/Step.lean ====
section
/-! DEFINITION. One step: the host's next action where it has one, else one transition of the sequencer
(spec/42_sequencing.md R180; notes/assumptions/2.md). -/

namespace Sys2Proof.Machine

/-- One step of the machine. -/
def step (s : State) : Host.Outcome State Fault Refusal :=
  match s.host with
  | [] => sequencer s
  | a :: rest => hostStep a rest s

/-- `s` with a host whose next action writes the command word `w` to CMD, which is where this block takes its next
instruction from (it fetches none, R190). A word that is no 2-bit value is not written. -/
def State.withFetchWord (s : State) (nbits w : Nat) : State :=
  match tableBytes nbits w with
  | [] => s
  | b :: _ => if cmdByteWf b then { s with host := .writeCmd (b.extractLsb' 0 2) :: s.host } else s

end Sys2Proof.Machine
end

