-- ==== Sys2Proof/Machine/FunctionForms.lean ====
section
/-! DEFINITION. The spec's other two descriptions of the four operations, which claims compare the machine with: the
function forms (spec/40_bitstream_codec.md R117, R126, R127; spec/41_carrier_codec.md R169, R170) and the loop forms of
EMBED and EXTRACT (R150, R162). The machine does not use them. -/

namespace Sys2Proof.Machine

/-! ## Text and bits -/

/-- `bits7(c)` (R117). -/
def bits7 (c : Nat) : List Bool :=
  [c.testBit 6, c.testBit 5, c.testBit 4, c.testBit 3, c.testBit 2, c.testBit 1, c.testBit 0]

/-- `keep(p)`: the characters of code point at most 126, in their order (R111, R127). -/
def keep (p : List Nat) : List Nat := p.filter (· ≤ 126)

/-- `textToBits(p)` (R117). -/
def textToBits (p : List Nat) : List Bool := ((keep p).map bits7).flatten ++ List.replicate 13 true

/-- `val7` of seven bits, the first the most significant (R85, R126). -/
def val7 (b0 b1 b2 b3 b4 b5 b6 : Bool) : Nat :=
  64 * b0.toNat + 32 * b1.toNat + 16 * b2.toNat + 8 * b3.toNat + 4 * b4.toNat + 2 * b5.toNat + b6.toNat

/-- `go(b, t)` (R126); `none` is NotFound. -/
def bitsToTextFrom : List Bool → List Group → Option (List Group)
  | b0 :: b1 :: b2 :: b3 :: b4 :: b5 :: b6 :: rest, t =>
    if val7 b0 b1 b2 b3 b4 b5 b6 = 127 then some t
    else bitsToTextFrom rest (t ++ [BitVec.ofNat 7 (val7 b0 b1 b2 b3 b4 b5 b6)])
  | _, _ => none

/-- `bitsToText(b)` (R126). -/
def bitsToText (b : List Bool) : Option (List Group) := bitsToTextFrom b []

/-- How many bits the recursion of R126 inspects: through the first group of value 127, or all (R60, R120, R122). -/
def bitsRead : List Bool → Nat
  | b0 :: b1 :: b2 :: b3 :: b4 :: b5 :: b6 :: rest =>
    if val7 b0 b1 b2 b3 b4 b5 b6 = 127 then 7 else 7 + bitsRead rest
  | b => b.length

/-- What ACC holds when no terminator group came: the incomplete last group (R119, R122). -/
def leftover (bs : List Bool) : Group := (bs.drop (7 * (bs.length / 7))).foldl shiftIn 0#7

/-! ## The grid as a sequence of cells -/

/-- The pixels in the order they are visited: x outer, y inner (R140). -/
def scanOrder (w h : Nat) : List (Nat × Nat) :=
  (List.range w).flatMap fun x => (List.range h).map fun y => (x, y)

/-- The cells in linear-index order (R169). -/
def State.cellsSeq (s : State) : List Byte := (scanOrder s.grid.w s.grid.h).map fun p => s.cell p.1 p.2

/-- `embed(g, bits)` (R169); `none` is CapacityExceeded. -/
def embedForm (g : List Byte) (bits : List Bool) : Option (List Byte) :=
  if g.length < bits.length then none
  else some (g.mapIdx fun k v => if k + 1 < bits.length then parityFlip v (bits.getD k false) else v)

/-- `extract(g)` (R170). -/
def extractForm (g : List Byte) : Option (List Group) := bitsToText (g.map parity)

/-! ## Transactions -/

/-- The transactions of EMBED's visit of a pixel of value `v` with the bit `b` (R58, R154). -/
def visitAccesses (chsel x y : Nat) (v : Byte) (b : Bool) : List Access :=
  if parityFlip v b = v then [.get chsel x y v] else [.get chsel x y v, .set chsel x y (parityFlip v b)]

/-- The transactions of a whole EMBED whose capacity check passes: the cells of linear index 0 to L − 2, in rising
order (R59). -/
def State.embedAccesses (s : State) : List Access :=
  ((scanOrder s.grid.w s.grid.h).take (s.bitsLen - 1)).zipIdx.flatMap fun p =>
    visitAccesses s.chsel p.1.1 p.1.2 (s.cell p.1.1 p.1.2) (s.bitAt p.2)

/-- The transactions of a whole EXTRACT: one get of each cell the decoder inspects, in rising order (R60). -/
def State.extractAccesses (s : State) : List Access :=
  ((scanOrder s.grid.w s.grid.h).take (bitsRead (s.cellsSeq.map parity))).map fun p =>
    .get s.chsel p.1 p.2 (s.cell p.1 p.2)

/-! ## Loop forms -/

/-- The loop of R150 over the pixels still to come; `none` where a pixel does not exist. -/
def embedLoop : List (Nat × Nat) → State → Option State
  | [], s => some (finish s .success)
  | p :: ps, s =>
    if s.bitsLen = 0 ∨ s.idx = stopCount s.bitsLen then some (finish s .success)
    else (visitEmbed s p.1 p.2).bind (embedLoop ps)

/-- EMBED in the loop form (R150). -/
def embedLoopForm (s : State) : Option State :=
  if s.grid.capacity < s.bitsLen then some (finish s .capacityExceeded)
  else embedLoop (scanOrder s.grid.w s.grid.h) { s with idx := 0 }

/-- The loop of R162 over the pixels still to come. -/
def extractLoop : List (Nat × Nat) → State → Option State
  | [], s => some (finishNotFound s)
  | p :: ps, s =>
    (visitExtract s p.1 p.2).bind fun r => if r.2 then some (finishFound r.1) else extractLoop ps r.1

/-- EXTRACT in the loop form (R162). -/
def extractLoopForm (s : State) : Option State :=
  extractLoop (scanOrder s.grid.w s.grid.h) { clearDecoder s with idx := 0 }

end Sys2Proof.Machine
end

