-- ==== Sys2Proof/Safety.lean ====
section
/-! DEFINITION. The terms claims use: the invariant of the machine, the transitions of PHASE, and states that differ only
in what no rule reads. -/

namespace Sys2Proof.Machine

/-- Where the scan pointer stands in each running phase (spec/10_state.md R21 to R23, spec/41_carrier_codec.md R141). -/
structure PointerInv (s : State) : Prop where
  /-- In SCANNING the linear index of the pointer is IDX; `X = GRID_W` means the scan has passed the last column. -/
  scanning : s.phase = .scanning →
    s.x * s.grid.h + s.y = s.idx ∧ s.x ≤ s.grid.w ∧ s.y < max s.grid.h 1 ∧ (s.x = s.grid.w → s.y = 0)
  /-- A visited pixel is inside the grid (spec/20_memory.md R55). -/
  visiting : s.phase = .readOrWrite → s.grid.Has s.x s.y ∧ s.x * s.grid.h + s.y = s.idx
  /-- In ADVANCE the visited pixel is already counted. -/
  advancing : s.phase = .advance → s.grid.Has s.x s.y ∧ s.x * s.grid.h + s.y + 1 = s.idx

/-- What a running EMBED keeps: the capacity check has passed (R151) and IDX stays below `max 1 BITS_LEN` (R156). -/
structure EmbedInv (s : State) : Prop where
  fits : s.bitsLen ≤ s.grid.capacity
  scanning : s.phase = .scanning → s.idx = 0 ∨ s.idx < s.bitsLen
  visiting : s.phase = .readOrWrite → s.idx + 1 < s.bitsLen
  advancing : s.phase = .advance → s.idx < s.bitsLen

/-- What a running EXTRACT keeps: ACC holds CNT bits (R24, R25), and every cell read is in TEXT or ACC. -/
structure ExtractInv (s : State) : Prop where
  acc : s.acc.toNat < 2 ^ s.cnt.toNat
  count : 7 * s.text.length + s.cnt.toNat = s.idx

/-- What DONE says of the result (R27, R35): which operation gives which outcome; TEXT_LEN is the length of a text found,
and 0 where none was. -/
structure DoneInv (s : State) : Prop where
  encode : s.op = .encode → s.outcome = .success
  decode : s.op = .decode → s.outcome = .success ∨ s.outcome = .notFound
  embed : s.op = .embed → s.outcome = .success ∨ s.outcome = .capacityExceeded
  extract : s.op = .extract → s.outcome = .success ∨ s.outcome = .notFound
  textLen : s.op = .decode ∨ s.op = .extract → s.outcome = .success → s.textLen = s.text.length
  withdrawn : s.outcome = .notFound → s.textLen = 0

/-- The invariant: it holds at reset and every step keeps it. -/
structure Inv (s : State) : Prop where
  /-- The cells keep their canonical form. -/
  cells : Memory.wf s.grid.cells
  /-- Only EMBED and EXTRACT have running phases (R183). -/
  op : s.Running → s.op = .embed ∨ s.op = .extract
  pointer : PointerInv s
  /-- CNT is 0 to 6 between steps (R25). -/
  cnt : s.cnt.toNat < 7
  embed : s.Running → s.op = .embed → EmbedInv s
  extract : s.Running → s.op = .extract → ExtractInv s
  /-- IDLE is the time before the first operation has finished (R26, R27). -/
  idle : s.phase = .idle → s.outcome = .none
  done : s.phase = .done → DoneInv s
  /-- TEXT never holds the terminator (R35, R120). -/
  text : ∀ c ∈ s.text, c ≠ Config.terminator

/-- The rows of R180 for a command the host writes in IDLE or DONE: `s` before, `t` after. -/
inductive CommandMove (s t : State) : Instr → Prop where
  | encode : t.phase = .done → t.outcome = .success → CommandMove s t .encode
  | decode : t.phase = .done → t.outcome = .success ∨ t.outcome = .notFound → CommandMove s t .decode
  | embedFails : s.grid.w * s.grid.h < s.bitsLen → t.phase = .done → t.outcome = .capacityExceeded →
      CommandMove s t .embed
  | embedPasses : s.bitsLen ≤ s.grid.w * s.grid.h → t.phase = .scanning → CommandMove s t .embed
  | extract : t.phase = .scanning → CommandMove s t .extract

/-- The bit carried by the cell at the pointer completes the terminator group (R85, R119, R120). -/
abbrev State.CompletesTerminator (s : State) : Prop :=
  s.cnt.toNat = 6 ∧ shiftIn s.acc (parity (s.cell s.x s.y)) = Config.terminator

/-- The rows of R180, each with its condition on the state before and with the state after. -/
inductive PhaseMove (s t : State) : Prop where
  /-- IDLE or DONE, and the host writes CMD. -/
  | command (c : CmdWord) (rest : List HostAction) : s.Ready → s.host = .writeCmd c :: rest →
      CommandMove s t (decodeCmd c) → PhaseMove s t
  | embedEnds : s.phase = .scanning → s.op = .embed → s.bitsLen = 0 ∨ s.idx + 1 = s.bitsLen →
      t.phase = .done → t.outcome = .success → PhaseMove s t
  | extractEnds : s.phase = .scanning → s.op = .extract → s.Exhausted →
      t.phase = .done → t.outcome = .notFound → PhaseMove s t
  /-- SCANNING otherwise: neither row above holds. -/
  | visit : s.phase = .scanning → s.op = .embed ∨ s.op = .extract →
      ¬(s.op = .embed ∧ (s.bitsLen = 0 ∨ s.idx + 1 = s.bitsLen)) → ¬s.Exhausted → s.grid.Has s.x s.y →
      t.phase = .readOrWrite → PhaseMove s t
  | embedVisited : s.phase = .readOrWrite → s.op = .embed → t.phase = .advance → PhaseMove s t
  | extractFound : s.phase = .readOrWrite → s.op = .extract → s.CompletesTerminator → t.acc = Config.terminator →
      t.phase = .done → t.outcome = .success → PhaseMove s t
  | extractVisited : s.phase = .readOrWrite → s.op = .extract → ¬s.CompletesTerminator → t.phase = .advance →
      PhaseMove s t
  | advanced : s.phase = .advance → t.phase = .scanning → PhaseMove s t
  /-- Any phase, and reset. -/
  | reset (rest : List HostAction) : s.host = .reset :: rest → t.phase = .idle → PhaseMove s t

/-- HIDE (R101, R188) as the host's actions after the payload is loaded: `ENCODE; EMBED`, each waited for. -/
def hide : List HostAction := [.writeCmd (encode .encode), .awaitDone, .writeCmd (encode .embed), .awaitDone]

/-- REVEAL (R102, R189): the single command `EXTRACT`, waited for. -/
def reveal : List HostAction := [.writeCmd (encode .extract), .awaitDone]

/-- The actions the host must not take while an operation runs (R64, R240): a change of an operand, of CHSEL or of the
grid. -/
def HostAction.touchesOperands : HostAction → Bool
  | .writeCmd _ => false
  | .writeStatus _ => false
  | .writeChsel _ => true
  | .writePayload _ => true
  | .writePayloadLen _ => true
  | .writeBits _ => true
  | .writeBitsLen _ => true
  | .supplyGrid _ _ => true
  | .writeCell _ _ _ _ => true
  | .tick => false
  | .awaitDone => false
  | .reset => false

/-- A step answered a state: what it answers, whatever the answer's kind, with the list of transactions forgotten. -/
def forgetLog : Host.Outcome State Fault Refusal → Host.Outcome State Fault Refusal
  | .next t => .next { t with log := [] }
  | .fault r => .fault r
  | .refused r => .refused r

/-- The host keeps to R187 step 4: it does nothing, or reads STATUS until no operation runs. -/
abbrev State.Quiet (s : State) : Prop := s.host = [] ∨ s.host.head? = some .awaitDone

/-- `n` steps of the machine. -/
abbrev run (n : Nat) (s : State) : Host.Outcome State Fault Refusal := Host.Core.run Sys2Proof.core n s

end Sys2Proof.Machine
end

