-- ==== Sys2Proof/Certificates/Slice0/Obligations.lean ====
section
/-! DEFINITION. The statements for the provers, each from the numbered rules of spec/ its docstring names. -/

open Sys2Proof Sys2Proof.Machine

/-! ## Command words -/

/-- The four words of spec/30_encoding.md R93, written out bit by bit, decode to their operations. That a byte with one of
bits 7:2 set is no command word is the model's choice (notes/assumptions/14.md). -/
def Obligations.CommandWordsDecode : Prop :=
  decodeBytes [0b00000000#8] = .ok (.encode, []) ∧ decodeBytes [0b00000001#8] = .ok (.decode, []) ∧
  decodeBytes [0b00000010#8] = .ok (.embed, []) ∧ decodeBytes [0b00000011#8] = .ok (.extract, []) ∧
  decodeBytes [0b00000100#8] = .error (.notTwoBits 0b00000100#8) ∧ decodeBytes [] = .error .noWord ∧
  decodeTableWord 8 0 = some .encode ∧ decodeTableWord 8 1 = some .decode ∧
  decodeTableWord 8 2 = some .embed ∧ decodeTableWord 8 3 = some .extract

/-- Decoding gives back every encoded instruction and leaves the bytes after it, and every command word is the code of
the one operation it decodes to (R90, R93, R97). -/
def Obligations.DecodeAndEncodeAgree : Prop :=
  (∀ (i : Instr) (rest : List Byte), i.wf = true → decodeBytes (encodeBytes i ++ rest) = .ok (i, rest)) ∧
  (∀ i : Instr, decodeCmd (encode i) = i) ∧ ∀ c : CmdWord, encode (decodeCmd c) = c

/-- A host write of a command word to CMD is the step that runs the instruction it decodes to, with the rest of the
host's actions still to come; `withFetchWord` places such a write (that a CMD write starts the operation is R29 and R181;
the list of host actions taken one a step, `withFetchWord` and the byte that carries a word are the model's choice,
notes/assumptions/2.md and 14.md). -/
def Obligations.StepRunsTheCommandWritten : Prop :=
  (∀ (s : State) (c : CmdWord) (rest : List HostAction), s.host = .writeCmd c :: rest →
    step s = exec (decodeCmd c) { s with host := rest }) ∧
  ∀ (s : State) (w : Nat), w < 4 → step (s.withFetchWord 8 w) = exec (decodeCmd (BitVec.ofNat 2 w)) s

/-- Where the host writes nothing the step is the sequencer's: with no action left, with a `tick`, and while it waits for
a running operation; a wait in IDLE or DONE is over at once, and a block with nothing to do holds its state (R184, R218;
how the host's actions interleave with the sequencer's steps is the model's, notes/assumptions/2.md and 3.md). -/
def Obligations.StepSequencesWhileTheHostWaits : Prop :=
  ∀ s : State,
    (s.host = [] → step s = sequencer s) ∧
    (∀ rest, s.host = .tick :: rest → step s = sequencer { s with host := rest }) ∧
    (∀ rest, s.host = .awaitDone :: rest → s.Running → step s = sequencer s) ∧
    (∀ rest, s.host = .awaitDone :: rest → s.Ready → step s = .next { s with host := rest }) ∧
    (s.host = [] → s.Ready → step s = .next s)

/-- A command written while an operation runs changes no state and is not remembered (R182). -/
def Obligations.BusyCommandIsIgnored : Prop :=
  ∀ (s : State) (c : CmdWord) (rest : List HostAction), s.Running → s.host = .writeCmd c :: rest →
    (∀ i : Instr, exec i s = .next s) ∧ step s = .next { s with host := rest }

/-! ## Reset and the invariant -/

/-- The values R40 states for reset. CHSEL, which R40 leaves unspecified, is not among them. -/
def Obligations.ResetStateHoldsTheStatedValues : Prop :=
  State.reset.phase = .idle ∧ State.reset.outcome = .none ∧ encode State.reset.op = 0 ∧
  State.reset.x = 0 ∧ State.reset.y = 0 ∧ State.reset.idx = 0 ∧ State.reset.acc = 0 ∧ State.reset.cnt = 0 ∧
  State.reset.payloadLen = 0 ∧ State.reset.bitsLen = 0 ∧ State.reset.textLen = 0 ∧ State.reset.status = 0

/-- The invariant holds after reset. -/
def Obligations.ResetMeetsTheInvariant : Prop := Inv State.reset

/-- Every step, whatever the host does, keeps the invariant: the pointer stands where IDX says and inside the grid while a
pixel is visited (R21, R23, R55, R141), only EMBED and EXTRACT have running phases (R183), a running EMBED fits its grid
and stays below its last bit (R151, R156), CNT is 0 to 6 in every state (R25) and counts ACC's bits (R24), each operation ends with an
outcome of its own (R27), TEXT_LEN counts a text found and is 0 where none was (R35), TEXT never holds 127 (R35), and the
cells stay canonical. -/
def Obligations.EveryStepKeepsTheInvariant : Prop :=
  ∀ s t : State, Inv s → step s = .next t → Inv t

/-- The block itself has no fault (R200): from a state that meets the invariant a step faults only where the host writes a
cell that does not exist (R36; the fault is the model's, notes/assumptions/11.md). -/
def Obligations.BlockNeverFaults : Prop :=
  ∀ (s : State) (r : Fault), Inv s → step s = .fault r →
    r = .outsideGrid ∧ ∃ ch x y v rest, s.host = .writeCell ch x y v :: rest ∧ ¬s.grid.Has x y

/-- A step is refused exactly where the host breaks the exclusive borrow: it changes an operand, CHSEL or the grid while
an operation runs (R64; that the model refuses such a run follows spec/93_implementation_defined.md B1). -/
def Obligations.RefusalsAreBorrowBreaches : Prop :=
  ∀ (s : State) (r : Refusal), step s = .refused r ↔
    r = .exclusiveBorrow ∧ s.Running ∧ ∃ a rest, s.host = a :: rest ∧ a.touchesOperands = true

/-! ## ENCODE -/

/-- ENCODE (R110, R113, R116) sets BITS to the payload's kept characters, seven bits each, and thirteen ones, BITS_LEN to
`7n + 13`, where `n <= PAYLOAD_LEN` characters are kept, and finishes with SUCCESS in one transition; nothing else changes
(R42) but the count of the free contents beyond BITS_LEN, the model's own field and choice (notes/assumptions/7.md). -/
def Obligations.EncodeSetsTheBitstream : Prop :=
  encode .encode = 0 ∧
  ∀ s : State, s.Ready →
    (keep s.payloadSeq).length ≤ s.payloadLen ∧
    exec .encode s = .next { s with
      op := .encode
      bits := textToBits s.payloadSeq
      bitsLen := 7 * (keep s.payloadSeq).length + 13
      outcome := .success
      phase := .done
      freeBits := s.freeBits + 1 }

/-- The layout of R80 and R81: bit `7g + j` is bit `6 − j` of the g-th kept code point, the last thirteen bits are 1, and
there is no other bit. -/
def Obligations.BitstreamHasTheStatedLayout : Prop :=
  ∀ p : List Nat,
    (textToBits p).length = 7 * (keep p).length + 13 ∧
    (∀ g c j, (keep p)[g]? = some c → j < 7 → (textToBits p)[7 * g + j]? = some (c.testBit (6 - j))) ∧
    ∀ k, k < 13 → (textToBits p)[7 * (keep p).length + k]? = some true

/-- In a bitstream ENCODE made, the first group of seven ones is the sentinel's, at group index n (R83). -/
def Obligations.FirstTerminatorGroupIsTheSentinel : Prop :=
  ∀ (p : List Nat) (g : Nat), g ≤ (keep p).length →
    (((textToBits p).drop (7 * g)).take 7 = List.replicate 7 true ↔ g = (keep p).length)

/-- A character above 126 leaves no trace in the bitstream, wherever it stands and whatever its low bits (R95, R111). -/
def Obligations.DroppedCharacterLeavesNoTrace : Prop :=
  ∀ (p q : List Nat) (c : Nat), 126 < c → textToBits (p ++ c :: q) = textToBits (p ++ q)

/-! ## DECODE -/

/-- DECODE, run bit by bit through ACC and CNT, ends as the function form says: SUCCESS with TEXT = t where
`bitsToText(BITS)` is `Found(t)`, NOT_FOUND with TEXT_LEN = 0 and an open TEXT where it is `NotFound`; nothing else
changes but ACC and CNT (R118, R125, R126; that ACC keeps the last group and CNT counts its bits, 0 of a completed group by
R25, is notes/assumptions/8.md; the claim holds for whatever TEXT holds after NOT_FOUND, notes/assumptions/17.md). -/
def Obligations.DecodeIsItsFunctionForm : Prop :=
  encode .decode = 1 ∧
  ∀ s : State, s.Ready →
    (∀ t, bitsToText s.bitsSeq = some t →
      exec .decode s = .next { s with
        op := .decode
        acc := 127
        cnt := 0
        text := t
        textLen := t.length
        outcome := .success
        phase := .done }) ∧
    (bitsToText s.bitsSeq = none →
      ∃ x : List Group, exec .decode s = .next { s with
        op := .decode
        acc := leftover s.bitsSeq
        cnt := BitVec.ofNat 3 (s.bitsLen % 7)
        text := x
        textLen := 0
        outcome := .notFound
        phase := .done })

/-- One bit consumed (R119): it goes into ACC; a seventh bit completes the group, which is the terminator, or a character
appended to TEXT; CNT is 0 after either (R25, notes/assumptions/8.md). -/
def Obligations.ConsumingOneBit : Prop :=
  ∀ (s : State) (b : Bool),
    (s.cnt.toNat < 6 →
      consume s b = ({ s with acc := s.acc.extractLsb' 0 6 ++ BitVec.ofBool b, cnt := s.cnt + 1 }, false)) ∧
    (s.cnt.toNat = 6 → s.acc.extractLsb' 0 6 ++ BitVec.ofBool b ≠ 127#7 →
      consume s b =
        ({ s with acc := 0, cnt := 0, text := s.text ++ [s.acc.extractLsb' 0 6 ++ BitVec.ofBool b] }, false)) ∧
    (s.cnt.toNat = 6 → s.acc.extractLsb' 0 6 ++ BitVec.ofBool b = 127#7 →
      consume s b = ({ s with acc := 127, cnt := 0 }, true))

/-- After the first terminator group no bit is read: what follows it changes nothing (R96, R120). -/
def Obligations.BitsAfterTheTerminatorAreIgnored : Prop :=
  ∀ (s : State) (bits rest : List Bool), (consumeAll s bits).2 = true → consumeAll s (bits ++ rest) = consumeAll s bits

/-- The codec law, which R127 infers from R117, R126 and R83: decoding an encoded payload finds its kept characters; it
still does with the last bit replaced by anything, with anything appended, and with anything after the terminator group. -/
def Obligations.DecodingAnEncodedPayloadFindsIt : Prop :=
  ∀ (p : List Nat) (b : Bool) (tail : List Bool),
    bitsToText (textToBits p) = some ((keep p).map (BitVec.ofNat 7)) ∧
    bitsToText ((textToBits p).dropLast ++ [b]) = some ((keep p).map (BitVec.ofNat 7)) ∧
    bitsToText (textToBits p ++ tail) = some ((keep p).map (BitVec.ofNat 7)) ∧
    bitsToText ((textToBits p).take (7 * (keep p).length + 7) ++ tail) = some ((keep p).map (BitVec.ofNat 7))

/-! ## The parity flip -/

/-- `Flip(v, b)` (R153): the value where its parity is the bit, else 254 for 255, else one more. -/
def Obligations.FlipFollowsTheRule : Prop :=
  ∀ (v : Byte) (b : Bool),
    (v.toNat % 2 = b.toNat → parityFlip v b = v) ∧
    (v.toNat % 2 ≠ b.toNat → v = 255 → parityFlip v b = 254) ∧
    (v.toNat % 2 ≠ b.toNat → v ≠ 255 → (parityFlip v b).toNat = v.toNat + 1)

/-- The flip moves a value by at most 1, gives it the bit's parity (R155), and a second flip to the same bit changes
nothing, as R155 infers from R153; but repeated embedding can walk a value upward, 1 to 4 for the bits 0, 1, 0. -/
def Obligations.FlipIsBoundedByOne : Prop :=
  (∀ (v : Byte) (b : Bool),
    (parityFlip v b).toNat ≤ v.toNat + 1 ∧ v.toNat ≤ (parityFlip v b).toNat + 1 ∧
    (parityFlip v b).toNat % 2 = b.toNat ∧ parityFlip (parityFlip v b) b = parityFlip v b) ∧
  parityFlip 1 false = 2 ∧ parityFlip 2 true = 3 ∧ parityFlip 3 false = 4

/-! ## EMBED -/

/-- EMBED checks the capacity first, once, on the whole length (R151): too small a grid gives CAPACITY_EXCEEDED with nothing
read or written, and otherwise the scan starts at (0, 0). -/
def Obligations.EmbedChecksCapacityFirst : Prop :=
  encode .embed = 2 ∧
  ∀ s : State, s.Ready →
    (s.grid.w * s.grid.h < s.bitsLen →
      exec .embed s = .next { s with op := .embed, outcome := .capacityExceeded, phase := .done }) ∧
    (s.bitsLen ≤ s.grid.w * s.grid.h →
      exec .embed s = .next { s with op := .embed, x := 0, y := 0, idx := 0, phase := .scanning })

/-- The Scanning step of EMBED (R157): it ends the operation when one bit is left, or none was there, else visits a pixel;
an exhausted grid ends it too. -/
def Obligations.EmbedScanningStep : Prop :=
  ∀ s : State, s.phase = .scanning → s.op = .embed →
    (s.bitsLen = 0 ∨ s.idx + 1 = s.bitsLen → sequencer s = .next { s with outcome := .success, phase := .done }) ∧
    (s.bitsLen ≠ 0 → s.idx + 1 ≠ s.bitsLen → s.grid.h = 0 ∨ s.x = s.grid.w →
      sequencer s = .next { s with outcome := .success, phase := .done }) ∧
    (s.bitsLen ≠ 0 → s.idx + 1 ≠ s.bitsLen → s.grid.h ≠ 0 → s.x ≠ s.grid.w →
      sequencer s = .next { s with phase := .readOrWrite })

/-- The ReadOrWrite step of EMBED (R152, R158): one get; the cell is set, and a set issued, exactly where the flip changes
the value (no set on a match is the spec's decision D11 where its source is silent, R154, notes/assumptions/13.md); IDX
counts; nothing else changes. -/
def Obligations.EmbedVisitsOnePixel : Prop :=
  ∀ s : State, s.phase = .readOrWrite → s.op = .embed → s.grid.Has s.x s.y →
    (parityFlip (s.cell s.x s.y) (s.bitAt s.idx) = s.cell s.x s.y →
      sequencer s = .next { s with
        idx := s.idx + 1
        phase := .advance
        log := .get s.chsel s.x s.y (s.cell s.x s.y) :: s.log }) ∧
    (parityFlip (s.cell s.x s.y) (s.bitAt s.idx) ≠ s.cell s.x s.y →
      sequencer s = .next { s with
        idx := s.idx + 1
        phase := .advance
        grid := s.grid.write s.channel s.x s.y (parityFlip (s.cell s.x s.y) (s.bitAt s.idx))
        log := .set s.chsel s.x s.y (parityFlip (s.cell s.x s.y) (s.bitAt s.idx)) ::
          .get s.chsel s.x s.y (s.cell s.x s.y) :: s.log })

/-- The Advance step of both operations (R159): down the column, then to the top of the next one. -/
def Obligations.AdvanceMovesThePointer : Prop :=
  ∀ s : State, s.phase = .advance →
    (s.y + 1 < s.grid.h → sequencer s = .next { s with y := s.y + 1, phase := .scanning }) ∧
    (s.grid.h ≤ s.y + 1 → sequencer s = .next { s with y := 0, x := s.x + 1, phase := .scanning })

/-- EMBED ends as its function form says (R169). Where the capacity check fails that is CapacityExceeded: nothing is read
or written. Where it passes, EMBED completes: acceptance and then three transitions for each of the `L − 1` pixels and a
last one bring the block, running until then, to DONE with SUCCESS and the cells of the function form; every channel value
outside the written region is as before (R59, R156, R161), the transactions are one get for each cell of the written
region in rising order with a set where the value changes (R59, R154), and nothing else changes but the scan pointer. The
last bit left out and no set on a match are the spec's decisions D13 and D11 (notes/assumptions/13.md); a host that ticks
or writes CMD on the way changes no transition, as StepSequencesWhileTheHostWaits and BusyCommandIsIgnored say. -/
def Obligations.EmbedRunsToItsFunctionForm : Prop :=
  ∀ s : State, s.Ready → s.Quiet → Memory.wf s.grid.cells →
    (s.grid.w * s.grid.h < s.bitsLen →
      embedForm s.cellsSeq s.bitsSeq = none ∧
      exec .embed s = .next { s with op := .embed, phase := .done, outcome := .capacityExceeded }) ∧
    (s.bitsLen ≤ s.grid.w * s.grid.h →
      ∃ t u : State,
        exec .embed s = .next t ∧ run (3 * (s.bitsLen - 1) + 1) t = .next u ∧
        (∀ k, k < 3 * (s.bitsLen - 1) + 1 → ∃ m, run k t = .next m ∧ m.Running) ∧
        embedForm s.cellsSeq s.bitsSeq = some u.cellsSeq ∧
        (∀ ch x y, ¬(ch = s.channel ∧ s.grid.Has x y ∧ x * s.grid.h + y + 1 < s.bitsLen) →
          u.grid.read ch x y = s.grid.read ch x y) ∧
        u = { s with
          op := .embed
          x := u.x
          y := u.y
          idx := s.bitsLen - 1
          phase := .done
          outcome := .success
          grid := { s.grid with cells := u.grid.cells }
          log := s.embedAccesses.reverse ++ s.log })

/-- EMBED's steps, run from acceptance to DONE, end in the state of the loop form of R150 but for the scan pointer, which
the loop form does not have: the same buffers, grid, outcome and transactions in the same order (R173). -/
def Obligations.EmbedStepsAgreeWithItsLoop : Prop :=
  ∀ s : State, s.Ready → s.Quiet →
    ∃ t n u v, exec .embed s = .next t ∧ run n t = .next u ∧ u.phase = .done ∧
      embedLoopForm { s with op := .embed } = some v ∧ u = { v with x := u.x, y := u.y }

/-! ## EXTRACT -/

/-- EXTRACT is accepted whatever the grid: the pointer, IDX, ACC and CNT are 0, TEXT is empty and the scan starts (R164);
it makes no capacity check (R209). -/
def Obligations.ExtractStartsItsScan : Prop :=
  encode .extract = 3 ∧
  ∀ s : State, s.Ready →
    exec .extract s = .next { s with
      op := .extract
      x := 0
      y := 0
      idx := 0
      acc := 0
      cnt := 0
      text := []
      phase := .scanning }

/-- The Scanning step of EXTRACT (R164, R165): an exhausted grid ends it with NOT_FOUND, TEXT_LEN = 0 and an open TEXT
(the claim holds for whatever TEXT then holds, notes/assumptions/17.md). -/
def Obligations.ExtractScanningStep : Prop :=
  ∀ s : State, s.phase = .scanning → s.op = .extract →
    (s.grid.h = 0 ∨ s.x = s.grid.w →
      ∃ x : List Group, sequencer s = .next { s with text := x, textLen := 0, outcome := .notFound, phase := .done }) ∧
    (s.grid.h ≠ 0 → s.x ≠ s.grid.w → sequencer s = .next { s with phase := .readOrWrite })

/-- The ReadOrWrite step of EXTRACT (R166): one get, IDX counts, the parity is consumed; SUCCESS with TEXT_LEN where the
terminator was seen, else the Advance step. Nothing else changes, no cell among it (R168). -/
def Obligations.ExtractVisitsOnePixel : Prop :=
  ∀ (s r : State) (stop : Bool), s.phase = .readOrWrite → s.op = .extract → s.grid.Has s.x s.y →
    consume { s with idx := s.idx + 1, log := .get s.chsel s.x s.y (s.cell s.x s.y) :: s.log }
      (decide ((s.cell s.x s.y).toNat % 2 = 1)) = (r, stop) →
    r = { s with
      idx := s.idx + 1
      acc := r.acc
      cnt := r.cnt
      text := r.text
      log := .get s.chsel s.x s.y (s.cell s.x s.y) :: s.log } ∧
    (stop = true → sequencer s = .next { r with textLen := r.text.length, outcome := .success, phase := .done }) ∧
    (stop = false → sequencer s = .next { r with phase := .advance })

/-- EXTRACT completes: acceptance and then at most `3 × GRID_W × GRID_H + 1` transitions (R184) bring the block, running
until then, to DONE with the outcome and text of the function form (R170); it reads exactly the cells the decoder inspects, in
rising order, and sets none (R60, R168); nothing else changes but the scan pointer, ACC, CNT and, after NOT_FOUND, TEXT,
which are left open. -/
def Obligations.ExtractRunsToItsFunctionForm : Prop :=
  ∀ s : State, s.Ready → s.Quiet →
    ∃ (t : State) (n : Nat) (u : State),
      exec .extract s = .next t ∧ n ≤ 3 * (s.grid.w * s.grid.h) + 1 ∧ run n t = .next u ∧
      (∀ k, k < n → ∃ m, run k t = .next m ∧ m.Running) ∧
      (∀ x, extractForm s.cellsSeq = some x → u.outcome = .success ∧ u.text = x ∧ u.textLen = x.length) ∧
      (extractForm s.cellsSeq = none → u.outcome = .notFound ∧ u.textLen = 0) ∧
      u = { s with
        op := .extract
        x := u.x
        y := u.y
        idx := bitsRead (s.cellsSeq.map parity)
        acc := u.acc
        cnt := u.cnt
        phase := .done
        outcome := u.outcome
        text := u.text
        textLen := u.textLen
        log := s.extractAccesses.reverse ++ s.log }

/-- EXTRACT's steps, run from acceptance to DONE, end in the state of the loop form of R162 but for the scan pointer: the
same text, outcome and transactions in the same order (R173). -/
def Obligations.ExtractStepsAgreeWithItsLoop : Prop :=
  ∀ s : State, s.Ready → s.Quiet →
    ∃ t n u v, exec .extract s = .next t ∧ run n t = .next u ∧ u.phase = .done ∧
      extractLoopForm { s with op := .extract } = some v ∧ u = { v with x := u.x, y := u.y }

/-! ## HIDE and REVEAL -/

/-- The round trip, which R172 infers from R171, R170 and R127: for every payload with n kept characters and every grid of at least `7n + 13` cells,
`ENCODE; EMBED; EXTRACT` ends with SUCCESS and TEXT = keep(p), the host then reading it (the host as a list of actions is
the model's, notes/assumptions/2.md). -/
def Obligations.RevealAfterHideFindsThePayload : Prop :=
  ∀ (s : State) (rest : List HostAction), s.Ready → Memory.wf s.grid.cells → s.host = hide ++ reveal ++ rest →
    7 * (keep s.payloadSeq).length + 13 ≤ s.grid.w * s.grid.h →
    ∃ n u, run n s = .next u ∧ u.host = rest ∧ u.phase = .done ∧ u.op = .extract ∧ u.outcome = .success ∧
      u.text = (keep s.payloadSeq).map (BitVec.ofNat 7) ∧ u.textLen = (keep s.payloadSeq).length ∧
      u.hostText = some ((keep s.payloadSeq).map (BitVec.ofNat 7))

/-- What HIDE leaves in the grid, which R171 infers from R156, R169 and R113: the cells of linear index 0 to `7n + 11` have the parities of the bitstream's bits, and
every later cell, the one of the thirteenth sentinel bit first, keeps its value (the spec's decision D13,
notes/assumptions/13.md). -/
def Obligations.HideLeavesTheBitstreamInTheGrid : Prop :=
  ∀ (s : State) (rest : List HostAction), s.Ready → Memory.wf s.grid.cells → s.host = hide ++ rest →
    7 * (keep s.payloadSeq).length + 13 ≤ s.grid.w * s.grid.h →
    ∃ n u, run n s = .next u ∧ u.host = rest ∧ u.phase = .done ∧ u.outcome = .success ∧
      (∀ k, k < 7 * (keep s.payloadSeq).length + 12 →
        (u.cellsSeq[k]?).map parity = (textToBits s.payloadSeq)[k]?) ∧
      ∀ k, 7 * (keep s.payloadSeq).length + 12 ≤ k → u.cellsSeq[k]? = s.cellsSeq[k]?

/-- HIDE needs the whole length: with fewer than `7n + 13` cells, `7n + 12` among them, it ends with CAPACITY_EXCEEDED
and the grid unchanged, no transaction issued (R188, R245). -/
def Obligations.HideNeedsTheWholeLength : Prop :=
  ∀ (s : State) (rest : List HostAction), s.Ready → s.host = hide ++ rest →
    s.grid.w * s.grid.h < 7 * (keep s.payloadSeq).length + 13 →
    ∃ n u, run n s = .next u ∧ u.host = rest ∧ u.phase = .done ∧ u.op = .embed ∧ u.outcome = .capacityExceeded ∧
      u.grid = s.grid ∧ u.log = s.log ∧ u.bits = textToBits s.payloadSeq

/-! ## The whole machine -/

/-- Every change of PHASE is a row of the table of R180, with that row's condition and outcome. -/
def Obligations.PhaseChangesOnlyByTheTable : Prop :=
  ∀ s t : State, Inv s → step s = .next t → t.phase ≠ s.phase → PhaseMove s t

/-- OUTCOME changes only where an operation ends, to one of its three results (R27, R186), or by a reset, to NONE
(R230). -/
def Obligations.OutcomeChangesOnlyAtAnEnd : Prop :=
  ∀ s t : State, step s = .next t → t.outcome ≠ s.outcome →
    (t.phase = .done ∧ t.outcome ≠ .none) ∨ (t.phase = .idle ∧ t.outcome = .none ∧ ∃ rest, s.host = .reset :: rest)

/-- Progress: from any state of a running operation that meets the invariant, a quiet host sees DONE within
`3 × GRID_W × GRID_H + 1` transitions (R184, R186), the block running until then. -/
def Obligations.EveryRunningOperationReachesDone : Prop :=
  ∀ s : State, Inv s → s.Running → s.Quiet →
    ∃ n u, n ≤ 3 * (s.grid.w * s.grid.h) + 1 ∧ run n s = .next u ∧ u.phase = .done ∧
      ∀ k, k < n → ∃ m, run k s = .next m ∧ m.Running

/-- A step issues at most one get and at most one set (R7), the set to the cell just read, with a value that differs from
the one read by exactly 1 (R52, R58), inside the grid (R55), each accompanied by CHSEL (R31); and only a step of a
visit, or a reset that interrupts one, issues any. -/
def Obligations.StepIssuesAtMostOneGetAndOneSet : Prop :=
  ∀ s t : State, step s = .next t →
    t.log = s.log ∨
    (s.Running ∧ s.grid.Has s.x s.y ∧ (s.phase = .readOrWrite ∨ ∃ rest, s.host = .reset :: rest) ∧ ∃ v : Byte,
      t.log = .get s.chsel s.x s.y v :: s.log ∨
      (s.op = .embed ∧ ∃ v' : Byte, (v'.toNat = v.toNat + 1 ∨ v.toNat = v'.toNat + 1) ∧
        t.log = .set s.chsel s.x s.y v' :: .get s.chsel s.x s.y v :: s.log))

/-- The sequencer changes no channel value but the designated channel of the pixel at the pointer, and that only in
EMBED's visit; the dimensions and the provider's selectors never (R37, R42, R52, R161, R168). -/
def Obligations.SequencerChangesOnlyThePointedCell : Prop :=
  ∀ s t : State, sequencer s = .next t →
    t.grid.w = s.grid.w ∧ t.grid.h = s.grid.h ∧ t.grid.selectors = s.grid.selectors ∧
    ∀ ch x y, ¬(s.phase = .readOrWrite ∧ s.op = .embed ∧ ch = s.channel ∧ x = s.x ∧ y = s.y) →
      t.grid.read ch x y = s.grid.read ch x y

/-- What the working registers, TEXT, OUTCOME and OP hold from an earlier operation is never used (R38, R41, R27): each
command gives the same state from any of them but for the registers it leaves alone, and so does every transition of a
running operation for OUTCOME, which only the end of the operation writes. -/
def Obligations.LeftoverRegistersAreNeverUsed : Prop :=
  (∀ (s : State) (x y idx : Nat) (acc : Group) (cnt : BitVec 3) (text : List Group) (bits : List Bool) (len : Nat)
    (o : Result) (p : Instr), s.Ready →
    exec .encode { s with bits, bitsLen := len, outcome := o, op := p } = exec .encode s ∧
    exec .decode { s with acc, cnt, text, textLen := len, outcome := o, op := p } = exec .decode s ∧
    (s.grid.w * s.grid.h < s.bitsLen → exec .embed { s with outcome := o, op := p } = exec .embed s) ∧
    (s.bitsLen ≤ s.grid.w * s.grid.h → ∀ t, exec .embed s = .next t →
      exec .embed { s with x, y, idx, outcome := o, op := p } = .next { t with outcome := o }) ∧
    ∀ t, exec .extract s = .next t →
      exec .extract { s with x, y, idx, acc, cnt, text, outcome := o, op := p } = .next { t with outcome := o }) ∧
  ∀ (s t : State) (o : Result), sequencer s = .next t →
    (s.Running ∧ t.phase = .done → sequencer { s with outcome := o } = .next t) ∧
    (¬(s.Running ∧ t.phase = .done) → sequencer { s with outcome := o } = .next { t with outcome := o })

/-- Nothing reads the list of transactions: a step of states that differ only in it answers the same but for it (R38; the
list is the model's own, notes/assumptions/12.md). -/
def Obligations.TransactionListIsNeverRead : Prop :=
  ∀ (s : State) (log : List Access), forgetLog (step { s with log }) = forgetLog (step s)

/-- STATUS (R30) is bit 7 zero, OP, OUTCOME and PHASE, and a host write to it has no effect. -/
def Obligations.StatusShowsTheFlags : Prop :=
  (∀ s : State,
    s.status.extractLsb' 0 3 = s.phase.code ∧ s.status.extractLsb' 3 2 = s.outcome.code ∧
    s.status.extractLsb' 5 2 = encode s.op ∧ s.status.getLsbD 7 = false) ∧
  (Phase.idle.code = 0 ∧ Phase.scanning.code = 1 ∧ Phase.readOrWrite.code = 2 ∧ Phase.advance.code = 3 ∧
    Phase.done.code = 4) ∧
  (Result.none.code = 0 ∧ Result.success.code = 1 ∧ Result.capacityExceeded.code = 2 ∧ Result.notFound.code = 3) ∧
  ∀ (s : State) (v : BitVec 8) (rest : List HostAction), s.host = .writeStatus v :: rest →
    step s = .next { s with host := rest }

/-- Reset in any phase: the block is in its reset state and the operation abandoned, no outcome reported; every channel
value is as before but, where an EMBED is interrupted before the cell at the pointer is known to be written, that cell,
which holds its old or its new value (R230, R231, B13; CHSEL's value and which of the two the cell holds are the
model's, notes/assumptions/4.md and 9.md). -/
def Obligations.ResetAbandonsTheOperation : Prop :=
  ∀ (s : State) (rest : List HostAction), Memory.wf s.grid.cells → s.host = .reset :: rest →
    ∃ t, step s = .next t ∧
      t = { State.reset with
        chsel := t.chsel
        grid := { s.grid with cells := t.grid.cells }
        host := rest
        log := t.log
        freePayload := t.freePayload
        freeBits := t.freeBits
        freeReset := t.freeReset } ∧
      (∀ ch x y, ¬(s.op = .embed ∧ (s.phase = .scanning ∨ s.phase = .readOrWrite) ∧ s.idx + 1 < s.bitsLen ∧
          ch = s.channel ∧ x = s.x ∧ y = s.y) → t.grid.read ch x y = s.grid.read ch x y) ∧
      (t.grid.read s.channel s.x s.y = s.cell s.x s.y ∨
        t.grid.read s.channel s.x s.y = parityFlip (s.cell s.x s.y) (s.bitAt s.idx))

/-- The host's writes in IDLE and DONE: each stores its value in its register or buffer, the buffers separate from their
length registers, and changes nothing else of the block (R31 to R34, R42, R187; the counts of free contents are the
model's own, notes/assumptions/7.md, and that a supplied grid starts at 0 is its choice, notes/assumptions/6.md). -/
def Obligations.HostLoadsTheOperands : Prop :=
  ∀ (s : State) (rest : List HostAction), s.Ready →
    (∀ v, s.host = .writeChsel v :: rest → step s = .next { s with host := rest, chsel := v }) ∧
    (∀ p, s.host = .writePayload p :: rest →
      step s = .next { s with host := rest, payload := p, freePayload := s.freePayload + 1 }) ∧
    (∀ n, s.host = .writePayloadLen n :: rest → step s = .next { s with host := rest, payloadLen := n }) ∧
    (∀ b, s.host = .writeBits b :: rest →
      step s = .next { s with host := rest, bits := b, freeBits := s.freeBits + 1 }) ∧
    (∀ n, s.host = .writeBitsLen n :: rest → step s = .next { s with host := rest, bitsLen := n }) ∧
    (∀ w h, s.host = .supplyGrid w h :: rest →
      step s = .next { s with host := rest, grid := { w, h, cells := [], selectors := s.grid.selectors } }) ∧
    ∀ ch x y v, s.host = .writeCell ch x y v :: rest → s.grid.Has x y →
      step s = .next { s with host := rest, grid := s.grid.write ch x y v }

/-- A buffer loaded to its length register's count reads back as it was loaded (R33, R34, B7). -/
def Obligations.LoadedBuffersReadBack : Prop :=
  ∀ s : State,
    (s.payloadLen ≤ s.payload.length → s.payloadSeq = s.payload.take s.payloadLen) ∧
    (s.bitsLen ≤ s.bits.length → s.bitsSeq = s.bits.take s.bitsLen)

/-- After a set the cell's get answers the value set, every other cell's get answers as before, and so does every other
channel of the pixel (R51, R52). -/
def Obligations.GetAnswersTheLastSet : Prop :=
  ∀ (s t : State) (x y : Nat) (v : Byte), Memory.wf s.grid.cells → gridSet s x y v = some t →
    (gridGet t x y).map Prod.fst = some v ∧
    (∀ x' y', ¬(x' = x ∧ y' = y) → (gridGet t x' y').map Prod.fst = (gridGet s x' y').map Prod.fst) ∧
    ∀ ch x' y', ch ≠ s.channel → t.grid.read ch x' y' = s.grid.read ch x' y'

/-- The k-th pixel visited is column `k div GRID_H`, row `k mod GRID_H` (R56, R140), and there are `GRID_W × GRID_H`. -/
def Obligations.ScanOrderIsColumnMajor : Prop :=
  ∀ w h : Nat, (scanOrder w h).length = w * h ∧
    ∀ k, k < w * h → (scanOrder w h)[k]? = some (k / h, k % h)

/-- The host reads results only at DONE (R249): an outcome there, never NONE (R27); a text only after a DECODE or EXTRACT
with SUCCESS, and then the whole of TEXT, free of the terminator (R35); and no cell while an operation runs (R64). -/
def Obligations.HostReadsOnlyCompleteResults : Prop :=
  ∀ s : State, Inv s →
    (∀ o, s.hostOutcome = some o → s.phase = .done ∧ o = s.outcome ∧ o ≠ .none) ∧
    (∀ x, s.hostText = some x →
      s.phase = .done ∧ (s.op = .decode ∨ s.op = .extract) ∧ s.outcome = .success ∧ x = s.text ∧ x.length = s.textLen ∧
      ∀ c ∈ x, c.toNat ≤ 126) ∧
    (s.Running → ∀ ch x y, s.hostCell ch x y = none)
end

