-- ==== Sys2Proof/Laws/State.lean ====
section
/-! SUPPORT. The state's fields after each named update, so that no proof unfolds a record update. -/

namespace Sys2Proof.Machine

variable (s : State)

/-! ## `record` -/

@[simp] theorem record_x (a : Access) : (s.record a).x = s.x := rfl
@[simp] theorem record_y (a : Access) : (s.record a).y = s.y := rfl
@[simp] theorem record_idx (a : Access) : (s.record a).idx = s.idx := rfl
@[simp] theorem record_acc (a : Access) : (s.record a).acc = s.acc := rfl
@[simp] theorem record_cnt (a : Access) : (s.record a).cnt = s.cnt := rfl
@[simp] theorem record_phase (a : Access) : (s.record a).phase = s.phase := rfl
@[simp] theorem record_outcome (a : Access) : (s.record a).outcome = s.outcome := rfl
@[simp] theorem record_op (a : Access) : (s.record a).op = s.op := rfl
@[simp] theorem record_chsel (a : Access) : (s.record a).chsel = s.chsel := rfl
@[simp] theorem record_payload (a : Access) : (s.record a).payload = s.payload := rfl
@[simp] theorem record_payloadLen (a : Access) : (s.record a).payloadLen = s.payloadLen := rfl
@[simp] theorem record_bits (a : Access) : (s.record a).bits = s.bits := rfl
@[simp] theorem record_bitsLen (a : Access) : (s.record a).bitsLen = s.bitsLen := rfl
@[simp] theorem record_text (a : Access) : (s.record a).text = s.text := rfl
@[simp] theorem record_textLen (a : Access) : (s.record a).textLen = s.textLen := rfl
@[simp] theorem record_grid (a : Access) : (s.record a).grid = s.grid := rfl
@[simp] theorem record_host (a : Access) : (s.record a).host = s.host := rfl
@[simp] theorem record_log (a : Access) : (s.record a).log = a :: s.log := rfl
@[simp] theorem record_freePayload (a : Access) : (s.record a).freePayload = s.freePayload := rfl
@[simp] theorem record_freeBits (a : Access) : (s.record a).freeBits = s.freeBits := rfl
@[simp] theorem record_freeReset (a : Access) : (s.record a).freeReset = s.freeReset := rfl

/-! ## `putCell` -/

@[simp] theorem putCell_x (px py : Nat) (v : Byte) : (s.putCell px py v).x = s.x := rfl
@[simp] theorem putCell_y (px py : Nat) (v : Byte) : (s.putCell px py v).y = s.y := rfl
@[simp] theorem putCell_idx (px py : Nat) (v : Byte) : (s.putCell px py v).idx = s.idx := rfl
@[simp] theorem putCell_acc (px py : Nat) (v : Byte) : (s.putCell px py v).acc = s.acc := rfl
@[simp] theorem putCell_cnt (px py : Nat) (v : Byte) : (s.putCell px py v).cnt = s.cnt := rfl
@[simp] theorem putCell_phase (px py : Nat) (v : Byte) : (s.putCell px py v).phase = s.phase := rfl
@[simp] theorem putCell_outcome (px py : Nat) (v : Byte) : (s.putCell px py v).outcome = s.outcome := rfl
@[simp] theorem putCell_op (px py : Nat) (v : Byte) : (s.putCell px py v).op = s.op := rfl
@[simp] theorem putCell_chsel (px py : Nat) (v : Byte) : (s.putCell px py v).chsel = s.chsel := rfl
@[simp] theorem putCell_payload (px py : Nat) (v : Byte) : (s.putCell px py v).payload = s.payload := rfl
@[simp] theorem putCell_payloadLen (px py : Nat) (v : Byte) : (s.putCell px py v).payloadLen = s.payloadLen := rfl
@[simp] theorem putCell_bits (px py : Nat) (v : Byte) : (s.putCell px py v).bits = s.bits := rfl
@[simp] theorem putCell_bitsLen (px py : Nat) (v : Byte) : (s.putCell px py v).bitsLen = s.bitsLen := rfl
@[simp] theorem putCell_text (px py : Nat) (v : Byte) : (s.putCell px py v).text = s.text := rfl
@[simp] theorem putCell_textLen (px py : Nat) (v : Byte) : (s.putCell px py v).textLen = s.textLen := rfl
@[simp] theorem putCell_grid (px py : Nat) (v : Byte) : (s.putCell px py v).grid = s.grid.write s.channel px py v := rfl
@[simp] theorem putCell_host (px py : Nat) (v : Byte) : (s.putCell px py v).host = s.host := rfl
@[simp] theorem putCell_log (px py : Nat) (v : Byte) : (s.putCell px py v).log = s.log := rfl
@[simp] theorem putCell_freePayload (px py : Nat) (v : Byte) : (s.putCell px py v).freePayload = s.freePayload := rfl
@[simp] theorem putCell_freeBits (px py : Nat) (v : Byte) : (s.putCell px py v).freeBits = s.freeBits := rfl
@[simp] theorem putCell_freeReset (px py : Nat) (v : Byte) : (s.putCell px py v).freeReset = s.freeReset := rfl

/-! ## `finish` -/

@[simp] theorem finish_x (o : Result) : (finish s o).x = s.x := rfl
@[simp] theorem finish_y (o : Result) : (finish s o).y = s.y := rfl
@[simp] theorem finish_idx (o : Result) : (finish s o).idx = s.idx := rfl
@[simp] theorem finish_acc (o : Result) : (finish s o).acc = s.acc := rfl
@[simp] theorem finish_cnt (o : Result) : (finish s o).cnt = s.cnt := rfl
@[simp] theorem finish_phase (o : Result) : (finish s o).phase = .done := rfl
@[simp] theorem finish_outcome (o : Result) : (finish s o).outcome = o := rfl
@[simp] theorem finish_op (o : Result) : (finish s o).op = s.op := rfl
@[simp] theorem finish_chsel (o : Result) : (finish s o).chsel = s.chsel := rfl
@[simp] theorem finish_payload (o : Result) : (finish s o).payload = s.payload := rfl
@[simp] theorem finish_payloadLen (o : Result) : (finish s o).payloadLen = s.payloadLen := rfl
@[simp] theorem finish_bits (o : Result) : (finish s o).bits = s.bits := rfl
@[simp] theorem finish_bitsLen (o : Result) : (finish s o).bitsLen = s.bitsLen := rfl
@[simp] theorem finish_text (o : Result) : (finish s o).text = s.text := rfl
@[simp] theorem finish_textLen (o : Result) : (finish s o).textLen = s.textLen := rfl
@[simp] theorem finish_grid (o : Result) : (finish s o).grid = s.grid := rfl
@[simp] theorem finish_host (o : Result) : (finish s o).host = s.host := rfl
@[simp] theorem finish_log (o : Result) : (finish s o).log = s.log := rfl
@[simp] theorem finish_freePayload (o : Result) : (finish s o).freePayload = s.freePayload := rfl
@[simp] theorem finish_freeBits (o : Result) : (finish s o).freeBits = s.freeBits := rfl
@[simp] theorem finish_freeReset (o : Result) : (finish s o).freeReset = s.freeReset := rfl

/-! ## `setDecoder` -/

@[simp] theorem setDecoder_x (a : Group) (c : BitVec 3) (t : List Group) : (s.setDecoder a c t).x = s.x := rfl
@[simp] theorem setDecoder_y (a : Group) (c : BitVec 3) (t : List Group) : (s.setDecoder a c t).y = s.y := rfl
@[simp] theorem setDecoder_idx (a : Group) (c : BitVec 3) (t : List Group) : (s.setDecoder a c t).idx = s.idx := rfl
@[simp] theorem setDecoder_acc (a : Group) (c : BitVec 3) (t : List Group) : (s.setDecoder a c t).acc = a := rfl
@[simp] theorem setDecoder_cnt (a : Group) (c : BitVec 3) (t : List Group) : (s.setDecoder a c t).cnt = c := rfl
@[simp] theorem setDecoder_phase (a : Group) (c : BitVec 3) (t : List Group) : (s.setDecoder a c t).phase = s.phase := rfl
@[simp] theorem setDecoder_outcome (a : Group) (c : BitVec 3) (t : List Group) : (s.setDecoder a c t).outcome = s.outcome := rfl
@[simp] theorem setDecoder_op (a : Group) (c : BitVec 3) (t : List Group) : (s.setDecoder a c t).op = s.op := rfl
@[simp] theorem setDecoder_chsel (a : Group) (c : BitVec 3) (t : List Group) : (s.setDecoder a c t).chsel = s.chsel := rfl
@[simp] theorem setDecoder_payload (a : Group) (c : BitVec 3) (t : List Group) : (s.setDecoder a c t).payload = s.payload := rfl
@[simp] theorem setDecoder_payloadLen (a : Group) (c : BitVec 3) (t : List Group) : (s.setDecoder a c t).payloadLen = s.payloadLen := rfl
@[simp] theorem setDecoder_bits (a : Group) (c : BitVec 3) (t : List Group) : (s.setDecoder a c t).bits = s.bits := rfl
@[simp] theorem setDecoder_bitsLen (a : Group) (c : BitVec 3) (t : List Group) : (s.setDecoder a c t).bitsLen = s.bitsLen := rfl
@[simp] theorem setDecoder_text (a : Group) (c : BitVec 3) (t : List Group) : (s.setDecoder a c t).text = t := rfl
@[simp] theorem setDecoder_textLen (a : Group) (c : BitVec 3) (t : List Group) : (s.setDecoder a c t).textLen = s.textLen := rfl
@[simp] theorem setDecoder_grid (a : Group) (c : BitVec 3) (t : List Group) : (s.setDecoder a c t).grid = s.grid := rfl
@[simp] theorem setDecoder_host (a : Group) (c : BitVec 3) (t : List Group) : (s.setDecoder a c t).host = s.host := rfl
@[simp] theorem setDecoder_log (a : Group) (c : BitVec 3) (t : List Group) : (s.setDecoder a c t).log = s.log := rfl
@[simp] theorem setDecoder_freePayload (a : Group) (c : BitVec 3) (t : List Group) : (s.setDecoder a c t).freePayload = s.freePayload := rfl
@[simp] theorem setDecoder_freeBits (a : Group) (c : BitVec 3) (t : List Group) : (s.setDecoder a c t).freeBits = s.freeBits := rfl
@[simp] theorem setDecoder_freeReset (a : Group) (c : BitVec 3) (t : List Group) : (s.setDecoder a c t).freeReset = s.freeReset := rfl

@[simp] theorem setDecoder_setDecoder (a a' : Group) (c c' : BitVec 3) (t t' : List Group) :
    (s.setDecoder a c t).setDecoder a' c' t' = s.setDecoder a' c' t' := rfl
@[simp] theorem setDecoder_self : s.setDecoder s.acc s.cnt s.text = s := rfl

/-! ## `clearDecoder` -/

@[simp] theorem clearDecoder_x : (clearDecoder s).x = s.x := rfl
@[simp] theorem clearDecoder_y : (clearDecoder s).y = s.y := rfl
@[simp] theorem clearDecoder_idx : (clearDecoder s).idx = s.idx := rfl
@[simp] theorem clearDecoder_acc : (clearDecoder s).acc = 0#7 := rfl
@[simp] theorem clearDecoder_cnt : (clearDecoder s).cnt = 0#3 := rfl
@[simp] theorem clearDecoder_phase : (clearDecoder s).phase = s.phase := rfl
@[simp] theorem clearDecoder_outcome : (clearDecoder s).outcome = s.outcome := rfl
@[simp] theorem clearDecoder_op : (clearDecoder s).op = s.op := rfl
@[simp] theorem clearDecoder_chsel : (clearDecoder s).chsel = s.chsel := rfl
@[simp] theorem clearDecoder_payload : (clearDecoder s).payload = s.payload := rfl
@[simp] theorem clearDecoder_payloadLen : (clearDecoder s).payloadLen = s.payloadLen := rfl
@[simp] theorem clearDecoder_bits : (clearDecoder s).bits = s.bits := rfl
@[simp] theorem clearDecoder_bitsLen : (clearDecoder s).bitsLen = s.bitsLen := rfl
@[simp] theorem clearDecoder_text : (clearDecoder s).text = [] := rfl
@[simp] theorem clearDecoder_textLen : (clearDecoder s).textLen = s.textLen := rfl
@[simp] theorem clearDecoder_grid : (clearDecoder s).grid = s.grid := rfl
@[simp] theorem clearDecoder_host : (clearDecoder s).host = s.host := rfl
@[simp] theorem clearDecoder_log : (clearDecoder s).log = s.log := rfl
@[simp] theorem clearDecoder_freePayload : (clearDecoder s).freePayload = s.freePayload := rfl
@[simp] theorem clearDecoder_freeBits : (clearDecoder s).freeBits = s.freeBits := rfl
@[simp] theorem clearDecoder_freeReset : (clearDecoder s).freeReset = s.freeReset := rfl

/-! ## `startScan` -/

@[simp] theorem startScan_x : (startScan s).x = 0 := rfl
@[simp] theorem startScan_y : (startScan s).y = 0 := rfl
@[simp] theorem startScan_idx : (startScan s).idx = 0 := rfl
@[simp] theorem startScan_acc : (startScan s).acc = s.acc := rfl
@[simp] theorem startScan_cnt : (startScan s).cnt = s.cnt := rfl
@[simp] theorem startScan_phase : (startScan s).phase = .scanning := rfl
@[simp] theorem startScan_outcome : (startScan s).outcome = s.outcome := rfl
@[simp] theorem startScan_op : (startScan s).op = s.op := rfl
@[simp] theorem startScan_chsel : (startScan s).chsel = s.chsel := rfl
@[simp] theorem startScan_payload : (startScan s).payload = s.payload := rfl
@[simp] theorem startScan_payloadLen : (startScan s).payloadLen = s.payloadLen := rfl
@[simp] theorem startScan_bits : (startScan s).bits = s.bits := rfl
@[simp] theorem startScan_bitsLen : (startScan s).bitsLen = s.bitsLen := rfl
@[simp] theorem startScan_text : (startScan s).text = s.text := rfl
@[simp] theorem startScan_textLen : (startScan s).textLen = s.textLen := rfl
@[simp] theorem startScan_grid : (startScan s).grid = s.grid := rfl
@[simp] theorem startScan_host : (startScan s).host = s.host := rfl
@[simp] theorem startScan_log : (startScan s).log = s.log := rfl
@[simp] theorem startScan_freePayload : (startScan s).freePayload = s.freePayload := rfl
@[simp] theorem startScan_freeBits : (startScan s).freeBits = s.freeBits := rfl
@[simp] theorem startScan_freeReset : (startScan s).freeReset = s.freeReset := rfl

/-! ## `finishFound` -/

@[simp] theorem finishFound_x : (finishFound s).x = s.x := rfl
@[simp] theorem finishFound_y : (finishFound s).y = s.y := rfl
@[simp] theorem finishFound_idx : (finishFound s).idx = s.idx := rfl
@[simp] theorem finishFound_acc : (finishFound s).acc = s.acc := rfl
@[simp] theorem finishFound_cnt : (finishFound s).cnt = s.cnt := rfl
@[simp] theorem finishFound_phase : (finishFound s).phase = .done := rfl
@[simp] theorem finishFound_outcome : (finishFound s).outcome = .success := rfl
@[simp] theorem finishFound_op : (finishFound s).op = s.op := rfl
@[simp] theorem finishFound_chsel : (finishFound s).chsel = s.chsel := rfl
@[simp] theorem finishFound_payload : (finishFound s).payload = s.payload := rfl
@[simp] theorem finishFound_payloadLen : (finishFound s).payloadLen = s.payloadLen := rfl
@[simp] theorem finishFound_bits : (finishFound s).bits = s.bits := rfl
@[simp] theorem finishFound_bitsLen : (finishFound s).bitsLen = s.bitsLen := rfl
@[simp] theorem finishFound_text : (finishFound s).text = s.text := rfl
@[simp] theorem finishFound_textLen : (finishFound s).textLen = s.text.length := rfl
@[simp] theorem finishFound_grid : (finishFound s).grid = s.grid := rfl
@[simp] theorem finishFound_host : (finishFound s).host = s.host := rfl
@[simp] theorem finishFound_log : (finishFound s).log = s.log := rfl
@[simp] theorem finishFound_freePayload : (finishFound s).freePayload = s.freePayload := rfl
@[simp] theorem finishFound_freeBits : (finishFound s).freeBits = s.freeBits := rfl
@[simp] theorem finishFound_freeReset : (finishFound s).freeReset = s.freeReset := rfl

/-! ## `finishNotFound` -/

@[simp] theorem finishNotFound_x : (finishNotFound s).x = s.x := rfl
@[simp] theorem finishNotFound_y : (finishNotFound s).y = s.y := rfl
@[simp] theorem finishNotFound_idx : (finishNotFound s).idx = s.idx := rfl
@[simp] theorem finishNotFound_acc : (finishNotFound s).acc = s.acc := rfl
@[simp] theorem finishNotFound_cnt : (finishNotFound s).cnt = s.cnt := rfl
@[simp] theorem finishNotFound_phase : (finishNotFound s).phase = .done := rfl
@[simp] theorem finishNotFound_outcome : (finishNotFound s).outcome = .notFound := rfl
@[simp] theorem finishNotFound_op : (finishNotFound s).op = s.op := rfl
@[simp] theorem finishNotFound_chsel : (finishNotFound s).chsel = s.chsel := rfl
@[simp] theorem finishNotFound_payload : (finishNotFound s).payload = s.payload := rfl
@[simp] theorem finishNotFound_payloadLen : (finishNotFound s).payloadLen = s.payloadLen := rfl
@[simp] theorem finishNotFound_bits : (finishNotFound s).bits = s.bits := rfl
@[simp] theorem finishNotFound_bitsLen : (finishNotFound s).bitsLen = s.bitsLen := rfl
@[simp] theorem finishNotFound_text : (finishNotFound s).text = [] := rfl
@[simp] theorem finishNotFound_textLen : (finishNotFound s).textLen = 0 := rfl
@[simp] theorem finishNotFound_grid : (finishNotFound s).grid = s.grid := rfl
@[simp] theorem finishNotFound_host : (finishNotFound s).host = s.host := rfl
@[simp] theorem finishNotFound_log : (finishNotFound s).log = s.log := rfl
@[simp] theorem finishNotFound_freePayload : (finishNotFound s).freePayload = s.freePayload := rfl
@[simp] theorem finishNotFound_freeBits : (finishNotFound s).freeBits = s.freeBits := rfl
@[simp] theorem finishNotFound_freeReset : (finishNotFound s).freeReset = s.freeReset := rfl

/-! ## `advance` -/

@[simp] theorem advance_idx : (advance s).idx = s.idx := by unfold advance; split <;> rfl
@[simp] theorem advance_acc : (advance s).acc = s.acc := by unfold advance; split <;> rfl
@[simp] theorem advance_cnt : (advance s).cnt = s.cnt := by unfold advance; split <;> rfl
@[simp] theorem advance_phase : (advance s).phase = .scanning := by unfold advance; split <;> rfl
@[simp] theorem advance_outcome : (advance s).outcome = s.outcome := by unfold advance; split <;> rfl
@[simp] theorem advance_op : (advance s).op = s.op := by unfold advance; split <;> rfl
@[simp] theorem advance_chsel : (advance s).chsel = s.chsel := by unfold advance; split <;> rfl
@[simp] theorem advance_payload : (advance s).payload = s.payload := by unfold advance; split <;> rfl
@[simp] theorem advance_payloadLen : (advance s).payloadLen = s.payloadLen := by unfold advance; split <;> rfl
@[simp] theorem advance_bits : (advance s).bits = s.bits := by unfold advance; split <;> rfl
@[simp] theorem advance_bitsLen : (advance s).bitsLen = s.bitsLen := by unfold advance; split <;> rfl
@[simp] theorem advance_text : (advance s).text = s.text := by unfold advance; split <;> rfl
@[simp] theorem advance_textLen : (advance s).textLen = s.textLen := by unfold advance; split <;> rfl
@[simp] theorem advance_grid : (advance s).grid = s.grid := by unfold advance; split <;> rfl
@[simp] theorem advance_host : (advance s).host = s.host := by unfold advance; split <;> rfl
@[simp] theorem advance_log : (advance s).log = s.log := by unfold advance; split <;> rfl
@[simp] theorem advance_freePayload : (advance s).freePayload = s.freePayload := by unfold advance; split <;> rfl
@[simp] theorem advance_freeBits : (advance s).freeBits = s.freeBits := by unfold advance; split <;> rfl
@[simp] theorem advance_freeReset : (advance s).freeReset = s.freeReset := by unfold advance; split <;> rfl

end Sys2Proof.Machine
end

