-- ==== Sys2Proof/Laws/Memory.lean ====
section
/-! SUPPORT. The memory of channel values: read after write, and the canonical form kept (spec/20_memory.md R51, R52). -/

namespace Sys2Proof.Machine

/-! ## Keys -/

theorem cellKey_inj {ch x y ch' x' y' : Nat} : cellKey ch x y = cellKey ch' x' y' ↔ ch = ch' ∧ x = x' ∧ y = y' := by
  simp [cellKey, Nat.pair_eq_pair]

/-! ## Read after write -/

@[simp] theorem Memory.read_nil (a : Nat) : Memory.read [] a = Memory.unlisted := rfl

theorem Memory.read_cons (k : Nat) (u : Byte) (m : List Host.Cell) (a : Nat) :
    Memory.read ((k, u) :: m) a = if k = a then u else Memory.read m a := rfl

/-- A key below every listed one reads as unlisted. -/
theorem Memory.read_of_lt {m : List Host.Cell} {a : Nat} (h : ∀ c ∈ m, a < c.1) : Memory.read m a = Memory.unlisted := by
  induction m with
  | nil => rfl
  | cons c m ih =>
    have hc := h c (by simp)
    rw [show c = (c.1, c.2) from rfl, Memory.read_cons, if_neg (by omega), ih fun d hd => h d (by simp [hd])]

theorem Memory.read_entry_append {a b : Nat} (v : Byte) (m : List Host.Cell) (h : a ≠ b) :
    Memory.read (Memory.entry a v ++ m) b = Memory.read m b := by
  unfold Memory.entry
  split
  · rfl
  · simp [Memory.read_cons, h]

theorem Memory.read_entry_same {a : Nat} (v : Byte) {m : List Host.Cell} (h : Memory.read m a = Memory.unlisted) :
    Memory.read (Memory.entry a v ++ m) a = v := by
  unfold Memory.entry
  split <;> simp_all [Memory.read_cons]

/-- A write leaves every other key alone. -/
theorem Memory.read_write_ne (m : List Host.Cell) {a b : Nat} (v : Byte) (h : a ≠ b) :
    Memory.read (Memory.write m a v) b = Memory.read m b := by
  induction m with
  | nil => simpa [Memory.write] using Memory.read_entry_append v [] h
  | cons c m ih =>
    obtain ⟨k, u⟩ := c
    unfold Memory.write
    split
    · next hk => subst hk; rw [Memory.read_entry_append v m h, Memory.read_cons, if_neg h]
    · split
      · exact Memory.read_entry_append v _ h
      · simp [Memory.read_cons, ih]

theorem Memory.wf_cons {c : Host.Cell} {m : List Host.Cell} :
    Memory.wf (c :: m) ↔ (∀ d ∈ m, c.1 < d.1) ∧ c.2 ≠ Memory.unlisted ∧ Memory.wf m := by
  simp only [Memory.wf, List.map_cons, List.pairwise_cons, List.mem_cons, List.mem_map, forall_exists_index, and_imp,
    forall_apply_eq_imp_iff₂, forall_eq_or_imp]
  tauto

/-- A key reads as what was last written to it. -/
theorem Memory.read_write_same {m : List Host.Cell} (hm : Memory.wf m) (a : Nat) (v : Byte) :
    Memory.read (Memory.write m a v) a = v := by
  induction m with
  | nil => simpa [Memory.write] using Memory.read_entry_same v (m := []) (a := a) rfl
  | cons c m ih =>
    obtain ⟨k, u⟩ := c
    obtain ⟨hlt, -, hm⟩ := Memory.wf_cons.1 hm
    unfold Memory.write
    split
    · next hk => subst hk; exact Memory.read_entry_same v (Memory.read_of_lt hlt)
    · split
      · next hk ha =>
        refine Memory.read_entry_same v (Memory.read_of_lt fun d hd => ?_)
        rcases List.mem_cons.1 hd with rfl | hd
        · exact ha
        · exact ha.trans (hlt d hd)
      · next hk _ => rw [Memory.read_cons, if_neg hk, ih hm]

/-! ## The canonical form -/

/-- The keys of a written memory are the old ones and the written one. -/
theorem Memory.mem_write {m : List Host.Cell} {a : Nat} {v : Byte} {c : Host.Cell} (h : c ∈ Memory.write m a v) :
    c.1 = a ∨ c ∈ m := by
  have he : ∀ {n : List Host.Cell}, c ∈ Memory.entry a v ++ n → c.1 = a ∨ c ∈ n := by
    intro n hc
    unfold Memory.entry at hc
    split at hc
    · exact .inr (by simpa using hc)
    · rcases List.mem_cons.1 (by simpa using hc) with rfl | hc
      · exact .inl rfl
      · exact .inr hc
  induction m with
  | nil => simpa using he (n := []) (by simpa [Memory.write] using h)
  | cons d m ih =>
    obtain ⟨k, u⟩ := d
    unfold Memory.write at h
    split at h
    · exact (he h).imp_right (List.mem_cons_of_mem _)
    · split at h
      · exact he h
      · rcases List.mem_cons.1 h with rfl | h
        · simp
        · exact (ih h).imp_right (List.mem_cons_of_mem _)

theorem Memory.wf_entry_append {a : Nat} {v : Byte} {m : List Host.Cell} (hm : Memory.wf m) (ha : ∀ d ∈ m, a < d.1) :
    Memory.wf (Memory.entry a v ++ m) := by
  unfold Memory.entry
  split
  · exact hm
  · next hv => exact Memory.wf_cons.2 ⟨ha, hv, hm⟩

/-- Every write keeps the canonical form. -/
theorem Memory.wf_write {m : List Host.Cell} (hm : Memory.wf m) (a : Nat) (v : Byte) : Memory.wf (Memory.write m a v) := by
  induction m with
  | nil => simpa [Memory.write] using Memory.wf_entry_append (a := a) (v := v) (m := []) hm (by simp)
  | cons c m ih =>
    obtain ⟨k, u⟩ := c
    obtain ⟨hlt, hu, hw⟩ := Memory.wf_cons.1 hm
    unfold Memory.write
    split
    · next hk => subst hk; exact Memory.wf_entry_append hw hlt
    · split
      · next hk ha =>
        refine Memory.wf_entry_append hm fun d hd => ?_
        rcases List.mem_cons.1 hd with rfl | hd
        · exact ha
        · exact ha.trans (hlt d hd)
      · next hk ha =>
        refine Memory.wf_cons.2 ⟨fun d hd => ?_, hu, ih hw⟩
        rcases Memory.mem_write hd with h | h
        · simp only [h]; omega
        · exact hlt d h

/-! ## The grid -/

@[simp] theorem Grid.write_w (g : Grid) (ch x y : Nat) (v : Byte) : (g.write ch x y v).w = g.w := rfl
@[simp] theorem Grid.write_h (g : Grid) (ch x y : Nat) (v : Byte) : (g.write ch x y v).h = g.h := rfl
@[simp] theorem Grid.write_selectors (g : Grid) (ch x y : Nat) (v : Byte) :
    (g.write ch x y v).selectors = g.selectors := rfl
@[simp] theorem Grid.write_capacity (g : Grid) (ch x y : Nat) (v : Byte) : (g.write ch x y v).capacity = g.capacity := rfl
@[simp] theorem Grid.write_channelOf (g : Grid) (ch x y : Nat) (v : Byte) (c : Nat) :
    (g.write ch x y v).channelOf c = g.channelOf c := rfl

theorem Grid.write_wf {g : Grid} (hg : Memory.wf g.cells) (ch x y : Nat) (v : Byte) :
    Memory.wf (g.write ch x y v).cells := Memory.wf_write hg _ v

theorem State.reset_cells_wf : Memory.wf State.reset.grid.cells := ⟨List.Pairwise.nil, fun _ h => nomatch h⟩

theorem Grid.read_write_same {g : Grid} (hg : Memory.wf g.cells) (ch x y : Nat) (v : Byte) :
    (g.write ch x y v).read ch x y = v := Memory.read_write_same hg _ v

theorem Grid.read_write_ne (g : Grid) {ch x y ch' x' y' : Nat} (v : Byte) (h : ¬(ch = ch' ∧ x = x' ∧ y = y')) :
    (g.write ch x y v).read ch' x' y' = g.read ch' x' y' :=
  Memory.read_write_ne _ v (mt cellKey_inj.1 h)

end Sys2Proof.Machine
end

