-- ==== Sys2Proof/Laws/Carrier.lean ====
section
/-! SUPPORT. The Carrier Codec: the scan order, the two transactions and the two visits, each said once
(spec/41_carrier_codec.md). -/

namespace Sys2Proof.Machine

/-! ## The scan order -/

theorem scanOrder_succ (w h : Nat) :
    scanOrder (w + 1) h = scanOrder w h ++ (List.range h).map fun y => (w, y) := by
  simp [scanOrder, List.range_succ]

@[simp] theorem scanOrder_length (w h : Nat) : (scanOrder w h).length = w * h := by
  induction w with
  | zero => simp [scanOrder]
  | succ w ih => simp [scanOrder_succ, ih, Nat.succ_mul]

/-- The pixel of linear index `x × GRID_H + y` is (x, y) (R56). -/
theorem scanOrder_get {w h x y : Nat} (hx : x < w) (hy : y < h) : (scanOrder w h)[x * h + y]? = some (x, y) := by
  induction w with
  | zero => omega
  | succ w ih =>
    rw [scanOrder_succ]
    rcases Nat.lt_succ_iff_lt_or_eq.1 hx with h' | rfl
    · have : x * h + y < w * h := by
        calc x * h + y < x * h + h := by omega
          _ = (x + 1) * h := by rw [Nat.succ_mul]
          _ ≤ w * h := Nat.mul_le_mul_right h h'
      rw [List.getElem?_append_left (by simpa using this), ih h']
    · rw [List.getElem?_append_right (by simp)]
      simp [hy]

theorem index_lt {w h x y : Nat} (hx : x < w) (hy : y < h) : x * h + y < w * h := by
  have := (List.getElem?_eq_some_iff.1 (scanOrder_get hx hy)).1
  simpa using this

/-! ## The two transactions -/

theorem gridGet_of_has {s : State} {x y : Nat} (h : s.grid.Has x y) :
    gridGet s x y = some (s.cell x y, s.record (.get s.chsel x y (s.cell x y))) := if_pos h

theorem gridSet_of_has {s : State} {x y : Nat} (h : s.grid.Has x y) (v : Byte) :
    gridSet s x y v = some ((s.putCell x y v).record (.set s.chsel x y v)) := if_pos h

theorem gridGet_eq_none {s : State} {x y : Nat} : gridGet s x y = none ↔ ¬s.grid.Has x y := by
  unfold gridGet; split <;> simp_all

/-! ## The two visits -/

/-- The grid after EMBED's visit of (x, y). -/
def visitedGrid (s : State) (x y : Nat) : Grid :=
  if parityFlip (s.cell x y) (s.bitAt s.idx) = s.cell x y then s.grid
  else s.grid.write s.channel x y (parityFlip (s.cell x y) (s.bitAt s.idx))

/-- All that EMBED's visit of an existing pixel does. -/
theorem visitEmbed_of_has {s : State} {x y : Nat} (h : s.grid.Has x y) :
    visitEmbed s x y = some { s with
      idx := s.idx + 1
      grid := visitedGrid s x y
      log := (visitAccesses s.chsel x y (s.cell x y) (s.bitAt s.idx)).reverse ++ s.log } := by
  simp only [visitEmbed, gridGet_of_has h, Option.bind_some, writeBack, Config.writeOnMatch, Bool.false_eq_true, or_false]
  by_cases hv : parityFlip (s.cell x y) (s.bitAt s.idx) = s.cell x y
  · simp [hv, visitedGrid, visitAccesses, State.record]
  · rw [if_pos hv, gridSet_of_has (s := s.record _) h]
    simp [hv, visitedGrid, visitAccesses, State.record, State.putCell, State.channel]

theorem visitEmbed_eq_none {s : State} {x y : Nat} : visitEmbed s x y = none ↔ ¬s.grid.Has x y := by
  by_cases h : s.grid.Has x y
  · simp [visitEmbed_of_has h, h]
  · simp [visitEmbed, gridGet_eq_none.2 h, h]

theorem visitExtract_of_has {s : State} {x y : Nat} (h : s.grid.Has x y) :
    visitExtract s x y =
      some (consume { s.record (.get s.chsel x y (s.cell x y)) with idx := s.idx + 1 } (parity (s.cell x y))) := by
  simp [visitExtract, gridGet_of_has h]

theorem visitExtract_eq_none {s : State} {x y : Nat} : visitExtract s x y = none ↔ ¬s.grid.Has x y := by
  simp [visitExtract, gridGet_eq_none]

@[simp] theorem visitedGrid_w (s : State) (x y : Nat) : (visitedGrid s x y).w = s.grid.w := by
  unfold visitedGrid; split <;> rfl
@[simp] theorem visitedGrid_h (s : State) (x y : Nat) : (visitedGrid s x y).h = s.grid.h := by
  unfold visitedGrid; split <;> rfl
@[simp] theorem visitedGrid_capacity (s : State) (x y : Nat) : (visitedGrid s x y).capacity = s.grid.capacity := by
  unfold visitedGrid; split <;> rfl
@[simp] theorem visitedGrid_channelOf (s : State) (x y c : Nat) :
    (visitedGrid s x y).channelOf c = s.grid.channelOf c := by
  unfold visitedGrid; split <;> rfl

theorem visitedGrid_wf {s : State} (h : Memory.wf s.grid.cells) (x y : Nat) : Memory.wf (visitedGrid s x y).cells := by
  unfold visitedGrid
  split
  · exact h
  · exact Grid.write_wf h _ _ _ _

/-- The visited cell holds the flipped value. -/
theorem visitedGrid_read_same {s : State} (h : Memory.wf s.grid.cells) (x y : Nat) :
    (visitedGrid s x y).read s.channel x y = parityFlip (s.cell x y) (s.bitAt s.idx) := by
  unfold visitedGrid
  split
  · next hv => rw [hv]; rfl
  · exact Grid.read_write_same h _ _ _ _

/-- Every other channel value is as before (R52). -/
theorem visitedGrid_read_ne (s : State) {x y ch x' y' : Nat} (h : ¬(s.channel = ch ∧ x = x' ∧ y = y')) :
    (visitedGrid s x y).read ch x' y' = s.grid.read ch x' y' := by
  unfold visitedGrid
  split
  · rfl
  · exact Grid.read_write_ne _ _ h

end Sys2Proof.Machine
end

