-- ==== Sys2Proof/Laws/Codec.lean ====
section
/-! SUPPORT. The Bitstream Codec: ENCODE's loop against `textToBits`, and the consumption rule against `bitsToText`
(spec/40_bitstream_codec.md). -/

namespace Sys2Proof.Machine

/-! ## ENCODE -/

theorem appendGroup_eq (bits : List Bool) (c : Nat) : appendGroup bits c = bits ++ bits7 c := by
  simp [appendGroup, bits7]

theorem foldl_appendChar (p : List Nat) (bits : List Bool) :
    p.foldl appendChar bits = bits ++ ((keep p).map bits7).flatten := by
  induction p generalizing bits with
  | nil => simp [keep]
  | cons c p ih =>
    by_cases h : c ≤ 126
    · simp [ih, appendChar, appendGroup_eq, keep, h, Nat.not_lt.2 h]
    · simp [ih, appendChar, keep, h, Nat.lt_of_not_le h]

theorem appendSentinel_eq (bits : List Bool) : appendSentinel bits = bits ++ List.replicate 13 true := by
  simp [appendSentinel, List.range_succ, List.replicate]

theorem encodeLoop_eq (p : List Nat) : encodeLoop p = textToBits p := by
  simp [encodeLoop, appendSentinel_eq, foldl_appendChar, textToBits]

@[simp] theorem bits7_length (c : Nat) : (bits7 c).length = 7 := rfl

theorem textToBits_cons_keep {c : Nat} (p : List Nat) (h : c ≤ 126) : textToBits (c :: p) = bits7 c ++ textToBits p := by
  simp [textToBits, keep, h]

theorem textToBits_cons_drop {c : Nat} (p : List Nat) (h : 126 < c) : textToBits (c :: p) = textToBits p := by
  simp [textToBits, keep, Nat.not_le.2 h]

/-! ## Seven bits as a number -/

theorem val7_lt (b0 b1 b2 b3 b4 b5 b6 : Bool) : val7 b0 b1 b2 b3 b4 b5 b6 < 128 := by
  revert b0 b1 b2 b3 b4 b5 b6; decide

/-- A kept code point's bits read back as the code point. -/
theorem val7_bits7 {c : Nat} (h : c < 128) :
    val7 (c.testBit 6) (c.testBit 5) (c.testBit 4) (c.testBit 3) (c.testBit 2) (c.testBit 1) (c.testBit 0) = c := by
  revert h; revert c; decide

/-- ACC after a group's seven shifts is the group's value (R85, R119). -/
theorem shiftIn_group (b0 b1 b2 b3 b4 b5 b6 : Bool) :
    [b0, b1, b2, b3, b4, b5, b6].foldl shiftIn 0 = BitVec.ofNat 7 (val7 b0 b1 b2 b3 b4 b5 b6) := by
  revert b0 b1 b2 b3 b4 b5 b6; decide

/-! ## The consumption rule -/

/-- A bit that completes no group only goes into ACC. -/
theorem consume_partial {s : State} (b : Bool) (h : (s.cnt + 1).toNat < 7) :
    consume s b = (s.setDecoder (shiftIn s.acc b) (s.cnt + 1) s.text, false) := if_pos h

/-- All that one bit consumed can change: ACC, CNT and TEXT. -/
theorem consume_frame (s : State) (b : Bool) :
    (consume s b).1 = s.setDecoder (consume s b).1.acc (consume s b).1.cnt (consume s b).1.text := by
  unfold consume
  split <;> [skip; split] <;> rfl

/-- CNT holds 0 to 6 after every bit consumed (R25). -/
theorem consume_cnt_lt (s : State) (b : Bool) : (consume s b).1.cnt.toNat < 7 := by
  unfold consume
  split
  · assumption
  · split <;> exact (by decide : (0#3).toNat < 7)

/-- The terminator is seen exactly where the bit completes a group of value 127. -/
theorem consume_stops_iff (s : State) (b : Bool) :
    (consume s b).2 = true ↔ s.cnt.toNat = 6 ∧ shiftIn s.acc b = Config.terminator := by
  have hc : ∀ c : BitVec 3, (c + 1).toNat < 7 ↔ c.toNat ≠ 6 := by decide
  unfold consume
  split
  · next h => simp [(hc _).1 h]
  · next h =>
    have h6 : s.cnt.toNat = 6 := Decidable.not_not.1 (mt (hc _).2 h)
    split <;> simp_all

/-- The count after one more bit, where none is lost. -/
theorem cnt_succ {c : BitVec 3} (h : c.toNat < 7) : (c + 1).toNat = c.toNat + 1 := by
  rw [BitVec.toNat_add]
  exact Nat.mod_eq_of_lt (by simpa using Nat.succ_lt_succ h)

/-- Bits short of a group only go into ACC. -/
theorem consumeAll_partial (bs : List Bool) (s : State) (h : s.cnt.toNat + bs.length < 7) :
    consumeAll s bs = (s.setDecoder (bs.foldl shiftIn s.acc) (s.cnt + BitVec.ofNat 3 bs.length) s.text, false) := by
  induction bs generalizing s with
  | nil => simp [consumeAll]
  | cons b bs ih =>
    simp only [List.length_cons] at h
    have hc := cnt_succ (c := s.cnt) (by omega)
    rw [consumeAll, consume_partial b (by omega)]
    simp only [Bool.false_eq_true, if_false]
    rw [ih _ (by rw [setDecoder_cnt]; omega)]
    simp only [List.foldl_cons, List.length_cons, setDecoder_acc, setDecoder_cnt, setDecoder_text, setDecoder_setDecoder,
      BitVec.add_assoc, Nat.add_comm bs.length 1, BitVec.ofNat_add]
    rfl

/-- Consuming two lists one after the other. -/
theorem consumeAll_append (as bs : List Bool) (s : State) (h : (consumeAll s as).2 = false) :
    consumeAll s (as ++ bs) = consumeAll (consumeAll s as).1 bs := by
  induction as generalizing s with
  | nil => rfl
  | cons a as ih =>
    rw [List.cons_append, consumeAll, consumeAll]
    rw [consumeAll] at h
    split at h
    · cases h
    · next hc => simp only [hc, Bool.false_eq_true, if_false] at h ⊢; exact ih _ h

theorem ofNat_val7_eq_terminator (b0 b1 b2 b3 b4 b5 b6 : Bool) :
    BitVec.ofNat 7 (val7 b0 b1 b2 b3 b4 b5 b6) = Config.terminator ↔ val7 b0 b1 b2 b3 b4 b5 b6 = 127 := by
  revert b0 b1 b2 b3 b4 b5 b6; decide

/-- A whole group from an empty accumulator: the terminator stops, any other value is a character (R119 to R121). -/
theorem consumeAll_group {s : State} (ha : s.acc = 0#7) (hc : s.cnt = 0#3) (b0 b1 b2 b3 b4 b5 b6 : Bool)
    (rest : List Bool) :
    consumeAll s (b0 :: b1 :: b2 :: b3 :: b4 :: b5 :: b6 :: rest) =
      if val7 b0 b1 b2 b3 b4 b5 b6 = 127 then (s.setDecoder 127#7 0#3 s.text, true)
      else consumeAll (s.setDecoder 0#7 0#3 (s.text ++ [BitVec.ofNat 7 (val7 b0 b1 b2 b3 b4 b5 b6)])) rest := by
  have six := consumeAll_partial [b0, b1, b2, b3, b4, b5] s (by simp [hc])
  have hlist : b0 :: b1 :: b2 :: b3 :: b4 :: b5 :: b6 :: rest = [b0, b1, b2, b3, b4, b5] ++ b6 :: rest := rfl
  have hacc : shiftIn ([b0, b1, b2, b3, b4, b5].foldl shiftIn s.acc) b6 = BitVec.ofNat 7 (val7 b0 b1 b2 b3 b4 b5 b6) := by
    rw [ha, ← shiftIn_group]; rfl
  rw [hlist, consumeAll_append _ _ _ (by rw [six]), six]
  have h7 : consume (s.setDecoder ([b0, b1, b2, b3, b4, b5].foldl shiftIn s.acc)
      (s.cnt + BitVec.ofNat 3 [b0, b1, b2, b3, b4, b5].length) s.text) b6 =
      if val7 b0 b1 b2 b3 b4 b5 b6 = 127 then (s.setDecoder 127#7 0#3 s.text, true)
      else (s.setDecoder 0#7 0#3 (s.text ++ [BitVec.ofNat 7 (val7 b0 b1 b2 b3 b4 b5 b6)]), false) := by
    simp only [consume, setDecoder_cnt, setDecoder_acc, setDecoder_text, setDecoder_setDecoder, hacc, hc,
      ofNat_val7_eq_terminator]
    rw [if_neg (by simp)]
    split
    · next h => rw [h]
    · rfl
  rw [consumeAll, h7]
  split <;> rfl

theorem bitsToTextFrom_cons (b0 b1 b2 b3 b4 b5 b6 : Bool) (rest : List Bool) (t : List Group) :
    bitsToTextFrom (b0 :: b1 :: b2 :: b3 :: b4 :: b5 :: b6 :: rest) t =
      if val7 b0 b1 b2 b3 b4 b5 b6 = 127 then some t
      else bitsToTextFrom rest (t ++ [BitVec.ofNat 7 (val7 b0 b1 b2 b3 b4 b5 b6)]) := by
  rw [bitsToTextFrom]

theorem bitsToTextFrom_short {bs : List Bool} (h : bs.length < 7) (t : List Group) : bitsToTextFrom bs t = none := by
  rcases bs with _ | ⟨_, _ | ⟨_, _ | ⟨_, _ | ⟨_, _ | ⟨_, _ | ⟨_, _ | ⟨_, _⟩⟩⟩⟩⟩⟩⟩ <;>
    first | rfl | (simp at h; omega)

/-- Induction over a bit sequence group by group. -/
theorem groupInduction {P : List Bool → Prop} (short : ∀ bs, bs.length < 7 → P bs)
    (group : ∀ b0 b1 b2 b3 b4 b5 b6 rest, P rest → P (b0 :: b1 :: b2 :: b3 :: b4 :: b5 :: b6 :: rest)) : ∀ bs, P bs
  | b0 :: b1 :: b2 :: b3 :: b4 :: b5 :: b6 :: rest => group _ _ _ _ _ _ _ _ (groupInduction short group rest)
  | [] => short _ (by simp)
  | [_] => short _ (by simp)
  | [_, _] => short _ (by simp)
  | [_, _, _] => short _ (by simp)
  | [_, _, _, _] => short _ (by simp)
  | [_, _, _, _, _] => short _ (by simp)
  | [_, _, _, _, _, _] => short _ (by simp)

/-- Consuming a bit sequence from an empty accumulator is the recursion of R126: where it finds a text, the terminator
was seen and TEXT holds it. -/
theorem consumeAll_found (bs : List Bool) {s : State} (ha : s.acc = 0#7) (hc : s.cnt = 0#3) {t : List Group}
    (h : bitsToTextFrom bs s.text = some t) :
    consumeAll s bs = (s.setDecoder 127#7 0#3 t, true) := by
  induction bs using groupInduction generalizing s t with
  | short bs hlen => rw [bitsToTextFrom_short hlen] at h; cases h
  | group b0 b1 b2 b3 b4 b5 b6 rest ih =>
    rw [bitsToTextFrom_cons] at h
    rw [consumeAll_group ha hc]
    split at h
    · next hv => cases h; rw [if_pos hv]
    · next hv => rw [if_neg hv, ih rfl rfl h, setDecoder_setDecoder]

/-- Where the recursion of R126 finds none, every bit is consumed and the incomplete last group stays in ACC. -/
theorem consumeAll_notFound (bs : List Bool) {s : State} (ha : s.acc = 0#7) (hc : s.cnt = 0#3)
    (h : bitsToTextFrom bs s.text = none) :
    ∃ t, consumeAll s bs = (s.setDecoder (leftover bs) (BitVec.ofNat 3 (bs.length % 7)) t, false) := by
  induction bs using groupInduction generalizing s with
  | short bs hlen =>
    refine ⟨s.text, ?_⟩
    rw [consumeAll_partial bs s (by simpa [hc] using hlen)]
    have : bs.length / 7 = 0 := by omega
    simp [leftover, ha, hc, this, Nat.mod_eq_of_lt hlen]
  | group b0 b1 b2 b3 b4 b5 b6 rest ih =>
    rw [bitsToTextFrom_cons] at h
    rw [consumeAll_group ha hc]
    split at h
    · cases h
    · next hv =>
      obtain ⟨t, ht⟩ := ih (s := s.setDecoder 0#7 0#3 _) rfl rfl h
      refine ⟨t, ?_⟩
      have h1 : (b0 :: b1 :: b2 :: b3 :: b4 :: b5 :: b6 :: rest).length % 7 = rest.length % 7 := by simp only [List.length_cons]; omega
      have h2 : leftover (b0 :: b1 :: b2 :: b3 :: b4 :: b5 :: b6 :: rest) = leftover rest := by
        have : 7 * ((b0 :: b1 :: b2 :: b3 :: b4 :: b5 :: b6 :: rest).length / 7) = 7 * (rest.length / 7) + 7 := by
          simp only [List.length_cons]; omega
        simp only [leftover, this, List.drop_succ_cons]
      rw [if_neg hv, ht, h1, h2, setDecoder_setDecoder]

/-- CNT holds 0 to 6 after any bits consumed, where it did before (R25). -/
theorem consumeAll_cnt_lt (bs : List Bool) {s : State} (h : s.cnt.toNat < 7) : (consumeAll s bs).1.cnt.toNat < 7 := by
  induction bs generalizing s with
  | nil => exact h
  | cons b bs ih =>
    unfold consumeAll
    split
    · exact consume_cnt_lt s b
    · exact ih (consume_cnt_lt s b)

end Sys2Proof.Machine
end

