-- ==== Sys2Proof/Laws/PerInstr.lean ====
section
/-! SUPPORT. What is shown of each instruction as syntax: its row of spec/opcode_table.json. -/

/-- The "match" of an instruction's row; every row's "mask" is 0x3. -/
def Sys2Proof.Laws.TableRow.rowMatch : Sys2Proof.Instr → Nat
  | .encode => 0x0
  | .decode => 0x1
  | .embed => 0x2
  | .extract => 0x3

/-- An instruction is well formed, its word is its row's "match", and of the two-bit words the decoder reads exactly
those as it that the row matches. -/
def Sys2Proof.Laws.TableRow.Statement (i : Sys2Proof.Instr) : Prop :=
  i.wf = true ∧ (Sys2Proof.encode i).toNat = Sys2Proof.Laws.TableRow.rowMatch i ∧
    ∀ w < 4, Sys2Proof.decodeTableWord 2 w = some i ↔ w &&& 0x3 = Sys2Proof.Laws.TableRow.rowMatch i

theorem Sys2Proof.Laws.TableRow.encode : Sys2Proof.Laws.TableRow.Statement .encode := ⟨rfl, rfl, by decide⟩

theorem Sys2Proof.Laws.TableRow.decode : Sys2Proof.Laws.TableRow.Statement .decode := ⟨rfl, rfl, by decide⟩

theorem Sys2Proof.Laws.TableRow.embed : Sys2Proof.Laws.TableRow.Statement .embed := ⟨rfl, rfl, by decide⟩

theorem Sys2Proof.Laws.TableRow.extract : Sys2Proof.Laws.TableRow.Statement .extract := ⟨rfl, rfl, by decide⟩
end

