-- ==== Sys2Proof/Laws/Step.lean ====
section
/-! SUPPORT. What a command, a transition of the sequencer and a step can do, each said once. -/

namespace Sys2Proof.Machine

/-! ## Commands -/

theorem accept_ready {s : State} (h : s.Ready) (i : Instr) (rule : State → State) :
    accept i rule s = .next (rule { s with op := i }) := if_pos h

theorem accept_busy {s : State} (h : ¬s.Ready) (i : Instr) (rule : State → State) : accept i rule s = .next s := if_neg h

theorem running_iff_not_ready {s : State} : s.Running ↔ ¬s.Ready := by
  cases h : s.phase <;> simp [State.Running, State.Ready, h]

/-- Every command answers a next state. -/
theorem exec_next (i : Instr) (s : State) : ∃ t, exec i s = .next t := by
  cases i <;> simp only [exec, execEncode, execDecode, execEmbed, execExtract, accept] <;> split <;> exact ⟨_, rfl⟩

/-- The accept rule of each command. -/
def acceptRule : Instr → State → State
  | .encode => encodeRule
  | .decode => decodeRule
  | .embed => embedRule
  | .extract => extractRule

theorem exec_ready {s : State} (h : s.Ready) (i : Instr) : exec i s = .next (acceptRule i { s with op := i }) := by
  cases i <;> exact accept_ready h _ _

theorem exec_busy {s : State} (h : ¬s.Ready) (i : Instr) : exec i s = .next s := by
  cases i <;> exact accept_busy h _ _

/-! ## The sequencer -/

/-- All the sequencer can do when it answers a next state. -/
theorem sequencer_cases {s t : State} (h : sequencer s = .next t) :
    (s.Ready ∧ t = s) ∨
    (s.phase = .scanning ∧ s.op = .embed ∧ t = scanEmbed s) ∨
    (s.phase = .scanning ∧ s.op = .extract ∧ t = scanExtract s) ∨
    (s.phase = .readOrWrite ∧ s.op = .embed ∧ s.grid.Has s.x s.y ∧
      t = { s with
        idx := s.idx + 1
        phase := .advance
        grid := visitedGrid s s.x s.y
        log := (visitAccesses s.chsel s.x s.y (s.cell s.x s.y) (s.bitAt s.idx)).reverse ++ s.log }) ∨
    (s.phase = .readOrWrite ∧ s.op = .extract ∧ s.grid.Has s.x s.y ∧
      t = afterConsume (consume { s.record (.get s.chsel s.x s.y (s.cell s.x s.y)) with idx := s.idx + 1 }
        (parity (s.cell s.x s.y)))) ∨
    (s.phase = .advance ∧ t = advance s) := by
  unfold sequencer at h
  split at h
  · next hp => cases h; exact .inl ⟨.inl hp, rfl⟩
  · next hp =>
    unfold scanning at h
    split at h <;> cases h
    · next ho => exact .inr (.inl ⟨hp, ho, rfl⟩)
    · next ho => exact .inr (.inr (.inl ⟨hp, ho, rfl⟩))
  · next hp =>
    unfold readOrWrite at h
    split at h
    · cases h
    · cases h
    · next ho =>
      by_cases hh : s.grid.Has s.x s.y
      · simp only [readOrWriteEmbed, visitEmbed_of_has hh, Option.map_some, orFault] at h
        cases h
        exact .inr (.inr (.inr (.inl ⟨hp, ho, hh, rfl⟩)))
      · simp [readOrWriteEmbed, visitEmbed_eq_none.2 hh, orFault] at h
    · next ho =>
      by_cases hh : s.grid.Has s.x s.y
      · simp only [readOrWriteExtract, visitExtract_of_has hh, Option.map_some, orFault] at h
        cases h
        exact .inr (.inr (.inr (.inr (.inl ⟨hp, ho, hh, rfl⟩))))
      · simp [readOrWriteExtract, visitExtract_eq_none.2 hh, orFault] at h
  · next hp => cases h; exact .inr (.inr (.inr (.inr (.inr ⟨hp, rfl⟩))))
  · next hp => cases h; exact .inl ⟨.inr hp, rfl⟩

/-- The sequencer never refuses. -/
theorem sequencer_not_refused (s : State) (r : Refusal) : sequencer s ≠ .refused r := by
  unfold sequencer scanning readOrWrite readOrWriteEmbed readOrWriteExtract orFault
  split <;> (try split) <;> (try split) <;> simp

/-- When the sequencer faults. -/
theorem sequencer_fault {s : State} {r : Fault} (h : sequencer s = .fault r) :
    (s.phase = .scanning ∨ s.phase = .readOrWrite) ∧
      ((s.op = .encode ∨ s.op = .decode) ∨ (s.phase = .readOrWrite ∧ ¬s.grid.Has s.x s.y)) := by
  unfold sequencer at h
  split at h
  · cases h
  · next hp =>
    unfold scanning at h
    split at h <;> simp_all
  · next hp =>
    refine ⟨.inr hp, ?_⟩
    unfold readOrWrite at h
    split at h
    · next ho => exact .inl (.inl ho)
    · next ho => exact .inl (.inr ho)
    · by_cases hh : s.grid.Has s.x s.y
      · simp [readOrWriteEmbed, visitEmbed_of_has hh, orFault] at h
      · exact .inr ⟨hp, hh⟩
    · by_cases hh : s.grid.Has s.x s.y
      · simp [readOrWriteExtract, visitExtract_of_has hh, orFault] at h
      · exact .inr ⟨hp, hh⟩
  · cases h
  · cases h

/-! ## The invariant -/

/-- The invariant says nothing of what the host does next. -/
theorem Inv.withHost {s : State} (h : Inv s) (host : List HostAction) : Inv { s with host } :=
  ⟨h.cells, h.op, ⟨h.pointer.scanning, h.pointer.visiting, h.pointer.advancing⟩, h.cnt,
    fun hr ho => ⟨(h.embed hr ho).fits, (h.embed hr ho).scanning, (h.embed hr ho).visiting, (h.embed hr ho).advancing⟩,
    fun hr ho => ⟨(h.extract hr ho).acc, (h.extract hr ho).count⟩, h.idle,
    fun hp => let d := h.done hp; ⟨d.encode, d.decode, d.embed, d.extract, d.textLen, d.withdrawn⟩, h.text⟩

/-! ## Reset -/

/-- All a reset can do: the block in its reset state, and where it interrupts EMBED's visit of an existing pixel, that
visit done or not. -/
theorem resetAct_cases (s : State) :
    ∃ g l, resetAct s = { resetBlock s with grid := g, log := l } ∧
      ((g = s.grid ∧ l = s.log) ∨
        (s.MidWrite ∧ s.grid.Has s.x s.y ∧ g = visitedGrid s s.x s.y ∧
          l = (visitAccesses s.chsel s.x s.y (s.cell s.x s.y) (s.bitAt s.idx)).reverse ++ s.log)) := by
  unfold resetAct
  split
  · next h =>
    by_cases hh : s.grid.Has s.x s.y
    · rw [visitEmbed_of_has hh]
      exact ⟨_, _, rfl, .inr ⟨h.1, hh, rfl, rfl⟩⟩
    · rw [visitEmbed_eq_none.2 hh]
      exact ⟨_, _, rfl, .inl ⟨rfl, rfl⟩⟩
  · exact ⟨_, _, rfl, .inl ⟨rfl, rfl⟩⟩

/-! ## The step -/

/-- All a step can do when it answers a next state: a transition of the sequencer, a command, a host write in IDLE or
DONE, an action without effect on the block, or a reset. -/
theorem step_cases {s t : State} (h : step s = .next t) :
    (∃ hs, sequencer { s with host := hs } = .next t) ∨
    (∃ c rest, s.host = .writeCmd c :: rest ∧ exec (decodeCmd c) { s with host := rest } = .next t) ∨
    (s.Ready ∧ (Memory.wf s.grid.cells → Memory.wf t.grid.cells) ∧
      t = { s with
        host := t.host
        chsel := t.chsel
        payload := t.payload
        payloadLen := t.payloadLen
        bits := t.bits
        bitsLen := t.bitsLen
        grid := t.grid
        freePayload := t.freePayload
        freeBits := t.freeBits }) ∨
    (∃ rest, t = { s with host := rest }) ∨
    (∃ rest, s.host = .reset :: rest ∧ t = resetAct { s with host := rest }) := by
  unfold step at h
  split at h
  · exact .inl ⟨s.host, h⟩
  · next a rest hh =>
    cases a <;> simp only [hostStep, hostAct, hostWriteCell] at h
    case writeCmd c => exact .inr (.inl ⟨c, rest, hh, h⟩)
    case writeStatus => cases h; exact .inr (.inr (.inr (.inl ⟨rest, rfl⟩)))
    case tick => exact .inl ⟨rest, h⟩
    case awaitDone =>
      split at h
      · cases h; exact .inr (.inr (.inr (.inl ⟨rest, rfl⟩)))
      · exact .inl ⟨s.host, h⟩
    case reset => cases h; exact .inr (.inr (.inr (.inr ⟨rest, hh, rfl⟩)))
    case writeCell ch x y v =>
      split at h
      · next hr =>
        split at h <;> cases h
        exact .inr (.inr (.inl ⟨hr, fun hw => Grid.write_wf hw _ _ _ _, rfl⟩))
      · cases h
    case supplyGrid w h' =>
      split at h <;> cases h
      next hr => exact .inr (.inr (.inl ⟨hr, fun _ => ⟨List.Pairwise.nil, by simp⟩, rfl⟩))
    all_goals
      split at h <;> cases h
      next hr => exact .inr (.inr (.inl ⟨hr, id, rfl⟩))

/-! ## Runs -/

theorem run_zero (s : State) : run 0 s = .next s := rfl

theorem run_succ {s t : State} (h : step s = .next t) (n : Nat) : run (n + 1) s = run n t := by
  have h' : Sys2Proof.core.step s = .next t := h
  simp only [run, Host.Core.run, h']
  rfl

theorem run_succ_inv {s t : State} {n : Nat} (h : run (n + 1) s = .next t) :
    ∃ s', step s = .next s' ∧ run n s' = .next t := by
  cases hs : step s with
  | next s' => exact ⟨s', rfl, by rw [← run_succ hs]; exact h⟩
  | fault r =>
    have h' : Sys2Proof.core.step s = .fault r := hs
    simp only [run, Host.Core.run, h', reduceCtorEq] at h
  | refused r =>
    have h' : Sys2Proof.core.step s = .refused r := hs
    simp only [run, Host.Core.run, h', reduceCtorEq] at h

theorem run_add {s t : State} {n : Nat} (h : run n s = .next t) (m : Nat) : run (n + m) s = run m t := by
  induction n generalizing s with
  | zero => cases h; rw [Nat.zero_add]
  | succ n ih =>
    obtain ⟨s', hs, hr⟩ := run_succ_inv h
    rw [Nat.succ_add, run_succ hs, ih hr]

/-- While an operation runs and the host is quiet, a step is the sequencer's. -/
theorem step_quiet {s : State} (hq : s.Quiet) (hr : s.Running) : step s = sequencer s := by
  unfold step
  split
  · rfl
  · next a rest hh =>
    rcases hq with hq | hq
    · simp [hq] at hh
    · simp only [hh, List.head?_cons, Option.some.injEq] at hq
      subst hq
      exact if_neg (running_iff_not_ready.1 hr)

/-- A wait for an operation that does not run is over at once. -/
theorem step_await {s : State} {rest : List HostAction} (hh : s.host = .awaitDone :: rest) (hr : s.Ready) :
    step s = .next { s with host := rest } := by
  unfold step
  rw [hh]
  exact if_pos hr

/-- A write to CMD is the command's meaning. -/
theorem step_writeCmd {s : State} {c : CmdWord} {rest : List HostAction} (hh : s.host = .writeCmd c :: rest) :
    step s = exec (decodeCmd c) { s with host := rest } := by
  unfold step
  rw [hh]
  rfl

end Sys2Proof.Machine
end

