-- ==== Sys2Proof/Tests/Slice0.lean ====
section
/-! SUPPORT. The model's own tests: command words written out from spec/30_encoding.md R93, one step at a time of the
vectors of spec/95_test_vectors.md, and for every obligation with hypotheses a state and operands that meet them all. -/

namespace Sys2Proof.Tests

open Sys2Proof.Machine

/-! ## States -/

/-- A grid of `w` columns and `h` rows whose cells in linear-index order are `vals`, on channel 0. -/
def gridOf (w h : Nat) (vals : List Nat) : Grid where
  w := w
  h := h
  cells := ((scanOrder w h).zip vals).foldl (fun m p => Memory.write m (cellKey 0 p.1.1 p.1.2) (BitVec.ofNat 8 p.2)) []
  selectors := []

/-- The reset state with that grid. -/
def onGrid (w h : Nat) (vals : List Nat) : State := { State.reset with grid := gridOf w h vals }

/-- The reset state with a payload loaded. -/
def withPayload (p : List Nat) : State := { State.reset with payload := p, payloadLen := p.length }

/-- `s` with a bitstream loaded. -/
def withBits (s : State) (b : List Bool) : State := { s with bits := b, bitsLen := b.length }

/-- The state of a next outcome. -/
def answer : Host.Outcome State Fault Refusal → Option State
  | .next t => some t
  | .fault _ => none
  | .refused _ => none

/-- The fault of a faulting outcome. -/
def faultOf : Host.Outcome State Fault Refusal → Option Fault
  | .next _ => none
  | .fault r => some r
  | .refused _ => none

/-- EMBED about to visit row 2 of the grid of V20. -/
def embedVisiting : State :=
  { withBits (onGrid 1 4 [11, 12, 255, 7]) [true, false, false, true] with
    op := .embed, phase := .readOrWrite, y := 2, idx := 2 }

/-- EXTRACT about to visit the last cell of the grid of V30: the group 72 is in TEXT and six ones are in ACC. -/
def extractVisiting : State :=
  { onGrid 2 7 [9, 2, 4, 7, 6, 8, 0, 1, 3, 5, 7, 9, 11, 13] with
    op := .extract, phase := .readOrWrite, x := 1, y := 6, idx := 13, acc := 0b0111111#7, cnt := 6, text := [72] }

/-! ## Decoding and well-formedness -/

theorem test_encode_word : decodeBytes [0b00000000#8] = .ok (.encode, []) := by decide
theorem test_decode_word : decodeBytes [0b00000001#8] = .ok (.decode, []) := by decide
theorem test_embed_word : decodeBytes [0b00000010#8] = .ok (.embed, []) := by decide
theorem test_extract_word : decodeBytes [0b00000011#8] = .ok (.extract, []) := by decide

/-- The ill-formed terms the checks refuse: a byte that is no 2-bit value, a cell list out of order, one with a repeat and
one with an entry that an unlisted cell already reads as. -/
theorem test_ill_formed_refused :
    cmdByteWf 0b00000100#8 = false ∧ cmdByteWf 0b10000011#8 = false ∧ ¬Memory.wf [(2, 1), (1, 1)] ∧
      ¬Memory.wf [(1, 1), (1, 2)] ∧ ¬Memory.wf [(1, 0)] := by decide

/-- `withFetchWord` places the write of the word: the very next step accepts EMBED, whose scan of an empty bitstream
starts (R232 item 3, R160). -/
theorem test_fetch_word :
    (answer (step (State.reset.withFetchWord 8 2))).map (fun t => (t.op, t.phase)) = some (.embed, .scanning) := by decide

/-! ## Vectors -/

/-- V8: the kept characters 126 and 10, no trace of the others, then thirteen ones. -/
theorem test_encode_v8 :
    (answer (exec .encode (withPayload [126, 127, 128, 233, 10]))).map (fun t => (t.bits.map Bool.toNat, t.bitsLen)) =
      some ([1, 1, 1, 1, 1, 1, 0, 0, 0, 0, 1, 0, 1, 0, 1, 1, 1, 1, 1, 1, 1, 1, 1, 1, 1, 1, 1], 27) := by decide

/-- S3, V1: the empty payload gives exactly thirteen ones. -/
theorem test_encode_empty :
    (answer (exec .encode (withPayload []))).map (fun t => (t.bits, t.outcome)) =
      some (List.replicate 13 true, .success) := by decide

/-- V19b: only the first terminator group counts. -/
theorem test_decode_v19b :
    (answer (exec .decode (withBits State.reset
      [true, false, false, false, false, false, true, true, true, true, true, true, true, true,
       true, false, false, false, false, true, false, true, true, true, true, true, true, true]))).map
        (fun t => (t.outcome, t.text, t.textLen)) = some (.success, [65], 1) := by decide

/-- V16: seven ones across a group boundary are no terminator; the two characters collected are withdrawn. -/
theorem test_decode_v16 :
    (answer (exec .decode (withBits State.reset
      [false, true, true, true, true, true, true, true, false, false, false, false, false, false]))).map
        (fun t => (t.outcome, t.text, t.textLen)) = some (.notFound, [], 0) := by decide

/-- V24: two cells for three bits, though only two would be written. -/
theorem test_embed_v24 :
    (answer (exec .embed (withBits (onGrid 1 2 [10, 11]) [true, false, false]))).map
        (fun t => (t.outcome, t.phase, t.cellsSeq, t.log)) = some (.capacityExceeded, .done, [10, 11], []) := by decide

/-- V20, third pixel: 255 that must carry 0 goes down to 254, by one get and one set. -/
theorem test_embed_v20 :
    (answer (step embedVisiting)).map (fun t => (t.cellsSeq, t.idx, t.log)) =
      some ([11, 12, 254, 7], 3, [.set 0 0 2 254, .get 0 0 2 255]) := by decide

/-- V30: the terminator group completed by the very last cell is found before the grid is exhausted. -/
theorem test_extract_v30 :
    (answer (step extractVisiting)).map (fun t => (t.outcome, t.phase, t.text, t.textLen)) =
      some (.success, .done, [72], 1) := by decide

/-- V34: a grid without a row is exhausted at once. -/
theorem test_extract_v34 :
    (answer (step { onGrid 5 0 [] with op := .extract, phase := .scanning })).map (fun t => (t.outcome, t.phase)) =
      some (.notFound, .done) := by decide

/-- V40. -/
theorem test_flip_v40 :
    parityFlip 0 false = 0 ∧ parityFlip 0 true = 1 ∧ parityFlip 1 false = 2 ∧ parityFlip 1 true = 1 ∧
      parityFlip 3 false = 4 ∧ parityFlip 127 false = 128 ∧ parityFlip 254 true = 255 ∧ parityFlip 255 false = 254 ∧
      parityFlip 255 true = 255 := by decide

/-- The values of STATUS that P1, P2a, P3 and P6 end with: 0x6C, 0x54, 0x7C, 0x2C. -/
theorem test_status :
    State.status { State.reset with op := .extract, outcome := .success, phase := .done } = 0x6C#8 ∧
      State.status { State.reset with op := .embed, outcome := .capacityExceeded, phase := .done } = 0x54#8 ∧
      State.status { State.reset with op := .extract, outcome := .notFound, phase := .done } = 0x7C#8 ∧
      State.status { State.reset with op := .decode, outcome := .success, phase := .done } = 0x2C#8 := by decide

/-! ## States that meet the hypotheses of the obligations -/

/-- A state after a finished operation. -/
def finished : State := { State.reset with phase := .done, outcome := .success }

theorem reset_inv : Inv State.reset :=
  ⟨by decide, by decide, ⟨by decide, by decide, by decide⟩, by decide, nofun, nofun, by decide, nofun, by decide⟩

theorem embedVisiting_inv : Inv embedVisiting :=
  ⟨by decide, by decide, ⟨by decide, by decide, by decide⟩, by decide,
    fun _ _ => ⟨by decide, by decide, by decide, by decide⟩, nofun, nofun, nofun, by decide⟩

theorem extractVisiting_inv : Inv extractVisiting :=
  ⟨by decide, by decide, ⟨by decide, by decide, by decide⟩, by decide, nofun, fun _ _ => ⟨by decide, by decide⟩,
    nofun, nofun, by decide⟩

/-- The next state of a step that answers one. -/
theorem step_answer {s : State} (h : (answer (step s)).isSome = true) : ∃ t, step s = .next t := by
  cases hs : step s with
  | next t => exact ⟨t, rfl⟩
  | fault r => rw [hs] at h; cases h
  | refused r => rw [hs] at h; cases h

theorem witness_DecodeAndEncodeAgree : ∀ i : Instr, i.wf = true := by intro i; cases i <;> rfl

theorem witness_StepRunsTheCommandWritten :
    State.host { State.reset with host := [.writeCmd 3, .awaitDone] } = .writeCmd 3 :: [.awaitDone] ∧ 0 < 4 ∧ 3 < 4 := by
  decide

theorem witness_StepSequencesWhileTheHostWaits :
    State.reset.host = [] ∧ State.host { embedVisiting with host := [.tick] } = .tick :: [] ∧
      State.host { embedVisiting with host := [.awaitDone] } = .awaitDone :: [] ∧ embedVisiting.Running ∧
      State.host { finished with host := [.awaitDone] } = .awaitDone :: [] ∧ finished.Ready ∧ State.reset.Ready := by
  decide

theorem witness_BusyCommandIsIgnored :
    (∀ p ∈ [Phase.scanning, .readOrWrite, .advance], State.Running { embedVisiting with phase := p }) ∧
      State.host { embedVisiting with host := [.writeCmd 0] } = .writeCmd 0 :: [] := by decide

theorem witness_EveryStepKeepsTheInvariant :
    (∃ t, Inv embedVisiting ∧ step embedVisiting = .next t) ∧ (∃ t, Inv extractVisiting ∧ step extractVisiting = .next t) ∧
      ∃ t, Inv State.reset ∧ step State.reset = .next t :=
  ⟨let ⟨t, h⟩ := step_answer (s := embedVisiting) (by decide); ⟨t, embedVisiting_inv, h⟩,
    let ⟨t, h⟩ := step_answer (s := extractVisiting) (by decide); ⟨t, extractVisiting_inv, h⟩,
    ⟨State.reset, reset_inv, rfl⟩⟩

theorem witness_BlockNeverFaults :
    Inv { State.reset with host := [.writeCell 0 0 0 1] } ∧
      step { State.reset with host := [.writeCell 0 0 0 1] } = .fault .outsideGrid :=
  ⟨reset_inv.withHost _, rfl⟩

theorem witness_RefusalsAreBorrowBreaches :
    step { embedVisiting with host := [.writeChsel 1] } = .refused .exclusiveBorrow ∧ embedVisiting.Running :=
  ⟨rfl, by decide⟩

theorem witness_EncodeSetsTheBitstream : State.reset.Ready ∧ finished.Ready := by decide

theorem witness_BitstreamHasTheStatedLayout :
    (keep [126, 127, 10])[0]? = some 126 ∧ (keep [126, 127, 10])[1]? = some 10 ∧ 0 < 7 ∧ 6 < 7 ∧ 0 < 13 ∧ 12 < 13 := by
  decide

theorem witness_FirstTerminatorGroupIsTheSentinel : 0 ≤ (keep [65]).length ∧ 1 ≤ (keep [65]).length := by decide

theorem witness_DroppedCharacterLeavesNoTrace : 126 < 127 := by decide

theorem witness_DecodeIsItsFunctionForm :
    (State.reset.Ready ∧ bitsToText State.reset.bitsSeq = none) ∧
      State.Ready (withBits finished (List.replicate 7 true)) ∧
      bitsToText (withBits finished (List.replicate 7 true)).bitsSeq = some [] := by decide

theorem witness_ConsumingOneBit :
    (State.cnt { State.reset with cnt := 5 }).toNat < 6 ∧ (State.cnt { State.reset with cnt := 6 }).toNat = 6 ∧
      (0b0111110#7).extractLsb' 0 6 ++ BitVec.ofBool true ≠ 127#7 ∧
      (0b0111111#7).extractLsb' 0 6 ++ BitVec.ofBool true = 127#7 := by decide

theorem witness_BitsAfterTheTerminatorAreIgnored :
    (consumeAll (clearDecoder State.reset) (List.replicate 7 true)).2 = true := by decide

theorem witness_FlipFollowsTheRule :
    ((254#8).toNat % 2 = false.toNat ∧ (255#8).toNat % 2 = true.toNat) ∧ (255#8).toNat % 2 ≠ false.toNat ∧
      (254#8).toNat % 2 ≠ true.toNat ∧ 254#8 ≠ 255#8 := by decide

/-- Two cells: three bits are too many, two fit. -/
theorem witness_EmbedChecksCapacityFirst :
    State.Ready (withBits (onGrid 1 2 [10, 11]) (List.replicate 3 true)) ∧
      (onGrid 1 2 [10, 11]).grid.w * (onGrid 1 2 [10, 11]).grid.h < 3 ∧
      2 ≤ (onGrid 1 2 [10, 11]).grid.w * (onGrid 1 2 [10, 11]).grid.h := by decide

/-- EMBED in SCANNING with `len` bits, `idx` of them written, at column `x` of the grid of V20. -/
def embedScanning (len idx x : Nat) : State :=
  { onGrid 1 4 [10, 11, 255, 7] with op := .embed, phase := .scanning, bitsLen := len, idx, x }

theorem witness_EmbedScanningStep :
    (∀ s ∈ [embedScanning 0 0 0, embedScanning 4 3 0, embedScanning 4 2 1, embedScanning 4 2 0],
      s.phase = .scanning ∧ s.op = .embed) ∧
      (embedScanning 0 0 0).bitsLen = 0 ∧ (embedScanning 4 3 0).idx + 1 = (embedScanning 4 3 0).bitsLen ∧
      ((embedScanning 4 2 1).bitsLen ≠ 0 ∧ (embedScanning 4 2 1).idx + 1 ≠ (embedScanning 4 2 1).bitsLen ∧
        (embedScanning 4 2 1).x = (embedScanning 4 2 1).grid.w) ∧
      (embedScanning 4 2 0).bitsLen ≠ 0 ∧ (embedScanning 4 2 0).idx + 1 ≠ (embedScanning 4 2 0).bitsLen ∧
      (embedScanning 4 2 0).grid.h ≠ 0 ∧ (embedScanning 4 2 0).x ≠ (embedScanning 4 2 0).grid.w := by decide

/-- The third pixel of V20 must change, and would not if its bit were 1. -/
theorem witness_EmbedVisitsOnePixel :
    embedVisiting.phase = .readOrWrite ∧ embedVisiting.op = .embed ∧ embedVisiting.grid.Has embedVisiting.x embedVisiting.y ∧
      parityFlip (embedVisiting.cell 0 2) (embedVisiting.bitAt 2) ≠ embedVisiting.cell 0 2 ∧
      parityFlip (embedVisiting.cell 0 2) (State.bitAt { embedVisiting with bits := [true, false, true] } 2) =
        embedVisiting.cell 0 2 := by decide

theorem witness_AdvanceMovesThePointer :
    (State.phase { embedVisiting with phase := .advance } = .advance ∧ embedVisiting.y + 1 < embedVisiting.grid.h) ∧
      embedVisiting.grid.h ≤ State.y { embedVisiting with phase := .advance, y := 3 } + 1 := by decide

/-- The grid of V20 with its bitstream, an exact fit. -/
def embedReady : State := withBits (onGrid 1 4 [10, 11, 255, 7]) [true, false, false, true]

/-- V24: three bits for two cells. -/
def embedTooLong : State := withBits (onGrid 1 2 [10, 11]) [true, false, false]

/-- An exact fit, and one cell too few. -/
theorem witness_EmbedRunsToItsFunctionForm :
    (embedReady.Ready ∧ embedReady.Quiet ∧ Memory.wf embedReady.grid.cells ∧
      embedReady.bitsLen ≤ embedReady.grid.w * embedReady.grid.h) ∧
      embedTooLong.Ready ∧ embedTooLong.Quiet ∧ Memory.wf embedTooLong.grid.cells ∧
      embedTooLong.grid.w * embedTooLong.grid.h < embedTooLong.bitsLen := by decide

theorem witness_EmbedStepsAgreeWithItsLoop : embedReady.Ready ∧ embedReady.Quiet := by decide

theorem witness_ExtractStartsItsScan : State.reset.Ready ∧ finished.Ready := by decide

theorem witness_ExtractScanningStep :
    State.phase { extractVisiting with phase := .scanning } = .scanning ∧ extractVisiting.op = .extract ∧
      State.x { extractVisiting with x := 2, y := 0 } = extractVisiting.grid.w ∧
      Grid.h { extractVisiting.grid with h := 0 } = 0 ∧ extractVisiting.grid.h ≠ 0 ∧
      extractVisiting.x ≠ extractVisiting.grid.w := by decide

/-- The last cell of V30 completes the terminator; with five ones in ACC it completes no group. -/
theorem witness_ExtractVisitsOnePixel :
    extractVisiting.phase = .readOrWrite ∧ extractVisiting.op = .extract ∧
      extractVisiting.grid.Has extractVisiting.x extractVisiting.y ∧
      (consume { extractVisiting with idx := 14, log := [.get 0 1 6 13] }
        (decide ((extractVisiting.cell 1 6).toNat % 2 = 1))).2 = true ∧
      (consume { extractVisiting with idx := 14, log := [.get 0 1 6 13], acc := 0b0011111#7, cnt := 5 }
        (decide ((extractVisiting.cell 1 6).toNat % 2 = 1))).2 = false := by decide

theorem witness_ExtractRunsToItsFunctionForm :
    (embedReady.Ready ∧ embedReady.Quiet ∧ extractForm embedReady.cellsSeq = none) ∧
      State.Ready (onGrid 1 7 (List.replicate 7 1)) ∧ State.Quiet (onGrid 1 7 (List.replicate 7 1)) ∧
      extractForm (onGrid 1 7 (List.replicate 7 1)).cellsSeq = some [] := by decide

theorem witness_ExtractStepsAgreeWithItsLoop : embedReady.Ready ∧ embedReady.Quiet := by decide

/-- P4: the empty payload in thirteen cells, the smallest grid that HIDE accepts. -/
theorem witness_RevealAfterHideFindsThePayload :
    State.Ready { onGrid 13 1 [] with host := hide ++ reveal ++ [] } ∧ Memory.wf (onGrid 13 1 []).grid.cells ∧
      State.host { onGrid 13 1 [] with host := hide ++ reveal ++ [] } = hide ++ reveal ++ [] ∧
      7 * (keep (onGrid 13 1 []).payloadSeq).length + 13 ≤ (onGrid 13 1 []).grid.w * (onGrid 13 1 []).grid.h := by decide

theorem witness_HideLeavesTheBitstreamInTheGrid :
    State.Ready { onGrid 13 1 [] with host := hide ++ [] } ∧ Memory.wf (onGrid 13 1 []).grid.cells ∧
      State.host { onGrid 13 1 [] with host := hide ++ [] } = hide ++ [] ∧
      7 * (keep (onGrid 13 1 []).payloadSeq).length + 13 ≤ (onGrid 13 1 []).grid.w * (onGrid 13 1 []).grid.h ∧
      11 < 7 * (keep (onGrid 13 1 []).payloadSeq).length + 12 ∧ 7 * (keep (onGrid 13 1 []).payloadSeq).length + 12 ≤ 12 := by
  decide

/-- One cell short. -/
theorem witness_HideNeedsTheWholeLength :
    State.Ready { onGrid 12 1 [] with host := hide ++ [] } ∧
      State.host { onGrid 12 1 [] with host := hide ++ [] } = hide ++ [] ∧
      (onGrid 12 1 []).grid.w * (onGrid 12 1 []).grid.h < 7 * (keep (onGrid 12 1 []).payloadSeq).length + 13 := by decide

/-- A step that answers a state in another phase. -/
theorem phase_changes {s : State} {p : Phase} (h : (answer (step s)).map State.phase = some p) (hp : p ≠ s.phase) :
    ∃ t, step s = .next t ∧ t.phase ≠ s.phase := by
  cases hs : step s with
  | next t => rw [hs] at h; exact ⟨t, rfl, Option.some.inj h ▸ hp⟩
  | fault r => rw [hs] at h; cases h
  | refused r => rw [hs] at h; cases h

/-- The reset state, whose grid has no cell, with three bits loaded. -/
def embedNoGrid : State := withBits State.reset [true, false, false]

/-- EMBED in SCANNING at the start of V20, and with its one bit left. -/
def embedStarted : State := { embedReady with op := .embed, phase := .scanning }
def embedEnding : State := { embedReady with op := .embed, phase := .scanning, y := 3, idx := 3 }

/-- EMBED in ADVANCE after the third pixel of V20. -/
def embedAdvancing : State := { embedReady with op := .embed, phase := .advance, y := 2, idx := 3 }

/-- EXTRACT in SCANNING at the start of V30, on a grid without a cell, and in READ_OR_WRITE at the first cell. -/
def extractStarted : State := { onGrid 2 7 [9, 2, 4, 7, 6, 8, 0, 1, 3, 5, 7, 9, 11, 13] with op := .extract, phase := .scanning }
def extractEnding : State := { onGrid 5 0 [] with op := .extract, phase := .scanning }
def extractFirst : State := { extractStarted with phase := .readOrWrite }

theorem embedNoGrid_inv : Inv embedNoGrid :=
  ⟨by decide, by decide, ⟨by decide, by decide, by decide⟩, by decide, nofun, nofun, by decide, nofun, by decide⟩

theorem embedStarted_inv : Inv embedStarted :=
  ⟨by decide, by decide, ⟨by decide, by decide, by decide⟩, by decide,
    fun _ _ => ⟨by decide, by decide, by decide, by decide⟩, nofun, nofun, nofun, by decide⟩

theorem embedEnding_inv : Inv embedEnding :=
  ⟨by decide, by decide, ⟨by decide, by decide, by decide⟩, by decide,
    fun _ _ => ⟨by decide, by decide, by decide, by decide⟩, nofun, nofun, nofun, by decide⟩

theorem embedAdvancing_inv : Inv embedAdvancing :=
  ⟨by decide, by decide, ⟨by decide, by decide, by decide⟩, by decide,
    fun _ _ => ⟨by decide, by decide, by decide, by decide⟩, nofun, nofun, nofun, by decide⟩

theorem extractStarted_inv : Inv extractStarted :=
  ⟨by decide, by decide, ⟨by decide, by decide, by decide⟩, by decide, nofun, fun _ _ => ⟨by decide, by decide⟩,
    nofun, nofun, by decide⟩

theorem extractEnding_inv : Inv extractEnding :=
  ⟨by decide, by decide, ⟨by decide, by decide, by decide⟩, by decide, nofun, fun _ _ => ⟨by decide, by decide⟩,
    nofun, nofun, by decide⟩

theorem extractFirst_inv : Inv extractFirst :=
  ⟨by decide, by decide, ⟨by decide, by decide, by decide⟩, by decide, nofun, fun _ _ => ⟨by decide, by decide⟩,
    nofun, nofun, by decide⟩

/-- A state for every row of the table: the five accepted commands, EMBED's and EXTRACT's ends in SCANNING, their visits,
EMBED's visit done, EXTRACT's with the terminator and without, an advance, a reset. -/
theorem witness_PhaseChangesOnlyByTheTable :
    ∀ s ∈ [{ State.reset with host := [.writeCmd 0] }, { State.reset with host := [.writeCmd 1] },
        { embedNoGrid with host := [.writeCmd 2] }, { State.reset with host := [.writeCmd 2] },
        { State.reset with host := [.writeCmd 3] }, embedEnding, extractEnding, embedStarted, extractStarted,
        embedVisiting, extractVisiting, extractFirst, embedAdvancing, { extractVisiting with host := [.reset] }],
      Inv s ∧ ∃ t, step s = .next t ∧ t.phase ≠ s.phase := by
  simp only [List.forall_mem_cons]
  refine ⟨⟨reset_inv.withHost _, phase_changes (p := .done) rfl (by decide)⟩,
    ⟨reset_inv.withHost _, phase_changes (p := .done) rfl (by decide)⟩,
    ⟨embedNoGrid_inv.withHost _, phase_changes (p := .done) rfl (by decide)⟩,
    ⟨reset_inv.withHost _, phase_changes (p := .scanning) rfl (by decide)⟩,
    ⟨reset_inv.withHost _, phase_changes (p := .scanning) rfl (by decide)⟩,
    ⟨embedEnding_inv, phase_changes (p := .done) rfl (by decide)⟩,
    ⟨extractEnding_inv, phase_changes (p := .done) rfl (by decide)⟩,
    ⟨embedStarted_inv, phase_changes (p := .readOrWrite) rfl (by decide)⟩,
    ⟨extractStarted_inv, phase_changes (p := .readOrWrite) rfl (by decide)⟩,
    ⟨embedVisiting_inv, phase_changes (p := .advance) (by decide) (by decide)⟩,
    ⟨extractVisiting_inv, phase_changes (p := .done) (by decide) (by decide)⟩,
    ⟨extractFirst_inv, phase_changes (p := .advance) (by decide) (by decide)⟩,
    ⟨embedAdvancing_inv, phase_changes (p := .scanning) rfl (by decide)⟩,
    ⟨extractVisiting_inv.withHost _, phase_changes (p := .idle) ?_ (by decide)⟩, nofun⟩
  show some (State.phase (if State.MidWrite { extractVisiting with host := [] } ∧ _ then _ else _)) = _
  rw [if_neg (fun h => absurd h.1 (by decide))]
  rfl

theorem witness_OutcomeChangesOnlyAtAnEnd :
    (∃ t, step { State.reset with host := [.writeCmd 0] } = .next t ∧ t.outcome ≠ State.reset.outcome) ∧
      ∃ t, step { finished with host := [.reset] } = .next t ∧ t.outcome ≠ finished.outcome := by
  refine ⟨⟨_, rfl, by decide⟩, _, rfl, ?_⟩
  show State.outcome (if State.MidWrite { finished with host := [] } ∧ _ then _ else _) ≠ _
  rw [if_neg (fun h => absurd h.1 (by decide))]
  decide

theorem witness_EveryRunningOperationReachesDone :
    (Inv embedVisiting ∧ embedVisiting.Running ∧ embedVisiting.Quiet) ∧
      Inv extractVisiting ∧ extractVisiting.Running ∧ extractVisiting.Quiet :=
  ⟨⟨embedVisiting_inv, by decide, by decide⟩, extractVisiting_inv, by decide, by decide⟩

theorem witness_StepIssuesAtMostOneGetAndOneSet : ∃ t, step embedVisiting = .next t := step_answer (by decide)

theorem witness_SequencerChangesOnlyThePointedCell :
    ∃ t, sequencer embedVisiting = .next t ∧
      ¬(embedVisiting.phase = .readOrWrite ∧ embedVisiting.op = .embed ∧ 0 = embedVisiting.channel ∧
        0 = embedVisiting.x ∧ 1 = embedVisiting.y) :=
  let ⟨t, h⟩ := step_answer (s := embedVisiting) (by decide); ⟨t, h, by decide⟩

/-- Commands whose capacity check passes and fails, a running step that ends its operation and one that does not. -/
theorem witness_LeftoverRegistersAreNeverUsed :
    (embedReady.Ready ∧ embedReady.bitsLen ≤ embedReady.grid.w * embedReady.grid.h ∧
      (answer (exec .embed embedReady)).isSome = true ∧ (answer (exec .extract embedReady)).isSome = true) ∧
      (embedTooLong.Ready ∧ embedTooLong.grid.w * embedTooLong.grid.h < embedTooLong.bitsLen) ∧
      (embedEnding.Running ∧ (answer (sequencer embedEnding)).map State.phase = some .done) ∧
      (answer (sequencer embedVisiting)).map State.phase = some .advance := by decide

theorem witness_StatusShowsTheFlags :
    State.host { State.reset with host := [.writeStatus 255] } = .writeStatus 255 :: [] := by decide

theorem witness_ResetAbandonsTheOperation :
    Memory.wf embedVisiting.grid.cells ∧ State.host { embedVisiting with host := [.reset] } = .reset :: [] ∧
      ¬(embedVisiting.op = .embed ∧ (embedVisiting.phase = .scanning ∨ embedVisiting.phase = .readOrWrite) ∧
        embedVisiting.idx + 1 < embedVisiting.bitsLen ∧ 0 = embedVisiting.channel ∧ 0 = embedVisiting.x ∧
        3 = embedVisiting.y) := by decide

theorem witness_HostLoadsTheOperands :
    State.reset.Ready ∧ finished.Ready ∧ State.host { finished with host := [.writeChsel 2] } = .writeChsel 2 :: [] ∧
      State.host { finished with host := [.writePayload [72]] } = .writePayload [72] :: [] ∧
      State.host { finished with host := [.writePayloadLen 1] } = .writePayloadLen 1 :: [] ∧
      State.host { finished with host := [.writeBits [true]] } = .writeBits [true] :: [] ∧
      State.host { finished with host := [.writeBitsLen 1] } = .writeBitsLen 1 :: [] ∧
      State.host { finished with host := [.supplyGrid 0 0] } = .supplyGrid 0 0 :: [] ∧
      State.host { embedReady with host := [.writeCell 0 0 3 9] } = .writeCell 0 0 3 9 :: [] ∧ embedReady.grid.Has 0 3 := by
  decide

theorem witness_LoadedBuffersReadBack :
    (withPayload [72, 105]).payloadLen ≤ (withPayload [72, 105]).payload.length ∧
      embedReady.bitsLen ≤ embedReady.bits.length := by decide

theorem witness_GetAnswersTheLastSet :
    Memory.wf embedReady.grid.cells ∧ (gridSet embedReady 0 3 0).isSome = true ∧ ¬(0 = 0 ∧ 2 = 3) ∧
      1 ≠ embedReady.channel := by decide

theorem witness_ScanOrderIsColumnMajor : 0 < 4 * 7 ∧ 27 < 4 * 7 := by decide

/-- A DECODE that found the text [72]. -/
def decoded : State :=
  { State.reset with op := .decode, phase := .done, outcome := .success, text := [72], textLen := 1 }

theorem witness_HostReadsOnlyCompleteResults :
    (Inv decoded ∧ decoded.hostOutcome = some .success ∧ decoded.hostText = some [72]) ∧
      Inv embedVisiting ∧ embedVisiting.Running :=
  ⟨⟨⟨by decide, by decide, ⟨by decide, by decide, by decide⟩, by decide, nofun, nofun, by decide,
    fun _ => ⟨by decide, by decide, by decide, by decide, by decide, by decide⟩, by decide⟩, by decide, by decide⟩,
    embedVisiting_inv, by decide⟩

end Sys2Proof.Tests
end

/-! PROOFS. STATUS as a register of fields, and the host's write to it (spec/10_state.md R26 to R30). -/

namespace Sys2Proof.Machine

/-! ## The fields of STATUS -/

theorem status_phase (s : State) : s.status.extractLsb' 0 3 = s.phase.code := BitVec.extractLsb'_append_eq_right

/-- OUTCOME lies just above the three bits of PHASE. -/
theorem status_outcome (s : State) : s.status.extractLsb' 3 2 = s.outcome.code := by
  unfold State.status
  rw [BitVec.extractLsb'_append_eq_of_le (by decide)]
  exact BitVec.extractLsb'_append_eq_right

/-- OP lies just above PHASE and OUTCOME. -/
theorem status_op (s : State) : s.status.extractLsb' 5 2 = encode s.op := by
  unfold State.status
  rw [BitVec.extractLsb'_append_eq_of_le (by decide), BitVec.extractLsb'_append_eq_of_le (by decide)]
  exact BitVec.extractLsb'_append_eq_right

/-- Bit 7 lies above the seven bits of the three flags. -/
theorem status_bit7 (s : State) : s.status.getLsbD 7 = false := by
  unfold State.status
  rw [BitVec.getLsbD_append, BitVec.getLsbD_append, BitVec.getLsbD_append]
  rfl

/-! ## The host's write -/

/-- Where the host has an action left, a step is that action. -/
theorem step_of_host {s : State} {a : HostAction} {rest : List HostAction} (hh : s.host = a :: rest) :
    step s = hostStep a rest s := by
  unfold step
  rw [hh]

/-- A write to STATUS only takes itself off the host's list. -/
theorem step_writeStatus {s : State} {v : BitVec 8} {rest : List HostAction} (hh : s.host = .writeStatus v :: rest) :
    step s = .next { s with host := rest } :=
  step_of_host hh

/-- Settles O42, field by field; the codes of PHASE and OUTCOME are those the spec lists (R26, R27). -/
theorem statusShowsTheFlags : Obligations.StatusShowsTheFlags :=
  ⟨fun s => ⟨status_phase s, status_outcome s, status_op s, status_bit7 s⟩,
    ⟨rfl, rfl, rfl, rfl, rfl⟩, ⟨rfl, rfl, rfl, rfl⟩, fun _ _ _ => step_writeStatus⟩

end Sys2Proof.Machine

/-! PROOFS. The layout of the bitstream ENCODE produces (spec/30_encoding.md R80, R81). -/

namespace Sys2Proof.Machine

/-! ## One group -/

/-- A group holds its code point's bits from bit 6 down to bit 0. -/
theorem bits7_getElem? (c : Nat) {j : Nat} (hj : j < 7) : (bits7 c)[j]? = some (c.testBit (6 - j)) := by
  interval_cases j <;> rfl

/-! ## The groups one after the other -/

theorem flatten_bits7_length (cs : List Nat) : (cs.map bits7).flatten.length = 7 * cs.length := by
  induction cs with
  | nil => rfl
  | cons c cs ih =>
    rw [List.map_cons, List.flatten_cons, List.length_append, bits7_length, ih, List.length_cons, Nat.mul_succ, Nat.add_comm]

/-- The g-th group starts at bit 7g. -/
theorem flatten_bits7_getElem? {cs : List Nat} {g c j : Nat} (hg : cs[g]? = some c) (hj : j < 7) :
    (cs.map bits7).flatten[7 * g + j]? = some (c.testBit (6 - j)) := by
  induction cs generalizing g with
  | nil => cases hg
  | cons d cs ih =>
    rw [List.map_cons, List.flatten_cons]
    cases g with
    | zero =>
      cases hg
      rw [Nat.mul_zero, Nat.zero_add, List.getElem?_append_left hj, bits7_getElem? _ hj]
    | succ g =>
      have hskip : 7 * (g + 1) + j - (bits7 d).length = 7 * g + j := by rw [bits7_length]; omega
      rw [List.getElem?_append_right (by rw [bits7_length]; omega), hskip]
      exact ih hg

/-! ## The groups, then the sentinel -/

theorem textToBits_length (p : List Nat) : (textToBits p).length = 7 * (keep p).length + 13 := by
  rw [textToBits, List.length_append, flatten_bits7_length, List.length_replicate]

theorem textToBits_getElem?_group {p : List Nat} {g c j : Nat} (hg : (keep p)[g]? = some c) (hj : j < 7) :
    (textToBits p)[7 * g + j]? = some (c.testBit (6 - j)) := by
  have hbit := flatten_bits7_getElem? hg hj
  rw [textToBits, List.getElem?_append_left (List.getElem?_eq_some_iff.1 hbit).1, hbit]

theorem textToBits_getElem?_sentinel (p : List Nat) {k : Nat} (hk : k < 13) :
    (textToBits p)[7 * (keep p).length + k]? = some true := by
  rw [textToBits, ← flatten_bits7_length, List.getElem?_append_right (Nat.le_add_right ..), Nat.add_sub_cancel_left,
    List.getElem?_replicate_of_lt hk]

/-- Settles O12: the groups by induction on the kept code points, the sentinel after them. -/
theorem bitstreamHasTheStatedLayout : Obligations.BitstreamHasTheStatedLayout := fun p =>
  ⟨textToBits_length p, fun _ _ _ => textToBits_getElem?_group, fun _ => textToBits_getElem?_sentinel p⟩

end Sys2Proof.Machine

/-! PROOFS. The parity flip, and single transitions of the Carrier Codec: EMBED's acceptance, the Advance step and
EXTRACT's visit (spec/41_carrier_codec.md R151, R153, R159, R166). -/

namespace Sys2Proof.Machine

/-! ## The parity flip -/

theorem parity_eq_decide (v : Byte) : parity v = decide (v.toNat % 2 = 1) := Nat.testBit_zero _

/-- The bit a cell carries, as arithmetic (R86). -/
theorem parity_eq_iff (v : Byte) (b : Bool) : parity v = b ↔ v.toNat % 2 = b.toNat := by
  rw [parity_eq_decide]
  cases b
  · rw [decide_eq_false_iff_not, Nat.mod_two_not_eq_one]; rfl
  · exact decide_eq_true_iff

theorem parityFlip_of_match {v : Byte} {b : Bool} (h : parity v = b) : parityFlip v b = v := if_pos h

theorem parityFlip_of_mismatch {v : Byte} {b : Bool} (h : parity v ≠ b) :
    parityFlip v b = if v = 255 then v - 1 else v + 1 := if_neg h

/-- Below 255 one more does not wrap. -/
theorem toNat_succ_of_ne_max {v : Byte} (h : v ≠ 255) : (v + 1).toNat = v.toNat + 1 := by
  bv_omega

/-- Settles O19: a match, the maximum, and every other value, as the flip's own branches. -/
theorem flipFollowsTheRule : Obligations.FlipFollowsTheRule := by
  refine fun v b => ⟨fun hm => parityFlip_of_match ((parity_eq_iff v b).2 hm), fun hm hv => ?_, fun hm hv => ?_⟩
  · rw [parityFlip_of_mismatch (mt (parity_eq_iff v b).1 hm), if_pos hv, hv]; rfl
  · rw [parityFlip_of_mismatch (mt (parity_eq_iff v b).1 hm), if_neg hv, toNat_succ_of_ne_max hv]

/-! ## EMBED's acceptance -/

theorem exec_embed_of_lt {s : State} (hs : s.Ready) (h : s.grid.w * s.grid.h < s.bitsLen) :
    exec .embed s = .next (finish { s with op := .embed } .capacityExceeded) :=
  (exec_ready hs .embed).trans (congrArg _ (if_pos h))

theorem exec_embed_of_le {s : State} (hs : s.Ready) (h : s.bitsLen ≤ s.grid.w * s.grid.h) :
    exec .embed s = .next (startScan { s with op := .embed }) :=
  (exec_ready hs .embed).trans (congrArg _ (if_neg (Nat.not_lt.2 h)))

/-- Settles O21: an accepted EMBED is its accept rule, whose two branches are the two sides of the capacity check. -/
theorem embedChecksCapacityFirst : Obligations.EmbedChecksCapacityFirst :=
  ⟨rfl, fun _ hs => ⟨exec_embed_of_lt hs, exec_embed_of_le hs⟩⟩

/-! ## The sequencer's steps -/

theorem sequencer_advance {s : State} (hp : s.phase = .advance) : sequencer s = .next (advance s) := by
  unfold sequencer
  rw [hp]

theorem advance_of_lt {s : State} (h : s.y + 1 < s.grid.h) : advance s = { s with y := s.y + 1, phase := .scanning } :=
  if_pos h

theorem advance_of_le {s : State} (h : s.grid.h ≤ s.y + 1) :
    advance s = { s with y := 0, x := s.x + 1, phase := .scanning } := if_neg (Nat.not_lt.2 h)

/-- Settles O24: the row below, or the top of the next column. -/
theorem advanceMovesThePointer : Obligations.AdvanceMovesThePointer := by
  refine fun s hp => ⟨fun hlt => ?_, fun hle => ?_⟩
  · rw [sequencer_advance hp, advance_of_lt hlt]
  · rw [sequencer_advance hp, advance_of_le hle]

/-- EXTRACT's transition at an existing pixel: the parity consumed, then the end of the operation or the Advance step. -/
theorem sequencer_visitExtract {s : State} (hp : s.phase = .readOrWrite) (ho : s.op = .extract)
    (hh : s.grid.Has s.x s.y) :
    sequencer s = .next (afterConsume (consume
      { s.record (.get s.chsel s.x s.y (s.cell s.x s.y)) with idx := s.idx + 1 } (parity (s.cell s.x s.y)))) := by
  unfold sequencer readOrWrite
  simp only [hp, ho, readOrWriteExtract, visitExtract_of_has hh, Option.map_some, orFault]

/-- Settles O29: what the visit consumes is the cell's parity, and all it changes is what consuming a bit can. -/
theorem extractVisitsOnePixel : Obligations.ExtractVisitsOnePixel := by
  intro s r stop hp ho hh hc
  rw [← parity_eq_decide] at hc
  have hseq : sequencer s = .next (afterConsume (r, stop)) := hc ▸ sequencer_visitExtract hp ho hh
  have hframe := consume_frame
    { s with idx := s.idx + 1, log := .get s.chsel s.x s.y (s.cell s.x s.y) :: s.log } (parity (s.cell s.x s.y))
  rw [hc] at hframe
  refine ⟨hframe, fun hstop => ?_, fun hgo => ?_⟩
  · rw [hseq, hstop]; rfl
  · rw [hseq, hgo]; rfl

end Sys2Proof.Machine

/-! PROOFS. The Bitstream Codec: the codec law, and ENCODE and DECODE as their function forms (spec/30_encoding.md
section 1, spec/40_bitstream_codec.md). -/

namespace Sys2Proof.Machine

/-! ## Decoding whole groups -/

/-- A kept code point's group decodes to the code point (R126). -/
theorem bitsToTextFrom_bits7 {c : Nat} (hc : c ≤ 126) (rest : List Bool) (t : List Group) :
    bitsToTextFrom (bits7 c ++ rest) t = bitsToTextFrom rest (t ++ [BitVec.ofNat 7 c]) := by
  refine (bitsToTextFrom_cons ..).trans ?_
  rw [val7_bits7 (Nat.lt_succ_of_le (Nat.le_succ_of_le hc)), if_neg (by omega)]
  rfl

theorem bitsToTextFrom_ones (rest : List Bool) (t : List Group) :
    bitsToTextFrom (List.replicate 7 true ++ rest) t = some t := bitsToTextFrom_cons ..

/-- Groups of kept code points and then seven ones decode to the code points, whatever follows. -/
theorem bitsToTextFrom_groups {cs : List Nat} (h : ∀ c ∈ cs, c ≤ 126) (rest : List Bool) (t : List Group) :
    bitsToTextFrom ((cs.map bits7).flatten ++ (List.replicate 7 true ++ rest)) t =
      some (t ++ cs.map (BitVec.ofNat 7)) := by
  induction cs generalizing t with
  | nil => simp only [List.map_nil, List.append_nil]; exact bitsToTextFrom_ones rest t
  | cons c cs ih =>
    obtain ⟨hc, hcs⟩ := List.forall_mem_cons.1 h
    rw [List.map_cons, List.flatten_cons, List.append_assoc, bitsToTextFrom_bits7 hc, ih hcs, List.append_assoc]
    rfl

theorem le_of_mem_keep {p : List Nat} {c : Nat} (h : c ∈ keep p) : c ≤ 126 := by
  simpa using (List.mem_filter.1 h).2

/-! ## The codec law -/

/-- A bitstream cut anywhere behind the terminator group is the groups, seven ones and more ones. -/
theorem textToBits_take {p : List Nat} {m : Nat} (hm : 7 * (keep p).length + 7 ≤ m) :
    ∃ rest, (textToBits p).take m = ((keep p).map bits7).flatten ++ (List.replicate 7 true ++ rest) := by
  have hones : ∀ k, 7 ≤ k → List.replicate k true = List.replicate 7 true ++ List.replicate (k - 7) true := by
    intro k hk
    rw [List.replicate_append_replicate, Nat.add_sub_cancel' hk]
  refine ⟨List.replicate (min (m - 7 * (keep p).length) 13 - 7) true, ?_⟩
  rw [← hones _ (by omega), textToBits, List.take_append, List.take_of_length_le, List.take_replicate,
    flatten_bits7_length]
  rw [flatten_bits7_length]; omega

/-- What stands behind the terminator group of an encoded payload does not matter (R127). -/
theorem bitsToText_textToBits_take (p : List Nat) {m : Nat} (hm : 7 * (keep p).length + 7 ≤ m) (tail : List Bool) :
    bitsToText ((textToBits p).take m ++ tail) = some ((keep p).map (BitVec.ofNat 7)) := by
  obtain ⟨rest, hrest⟩ := textToBits_take hm
  rw [hrest, List.append_assoc, List.append_assoc]
  exact bitsToTextFrom_groups (fun _ => le_of_mem_keep) _ []

/-- Settles O18: each of the four bit sequences is the encoded payload cut behind its terminator group, with a tail. -/
theorem decodingAnEncodedPayloadFindsIt : Obligations.DecodingAnEncodedPayloadFindsIt := by
  intro p b tail
  have hlen := textToBits_length p
  have hwhole := fun t => bitsToText_textToBits_take p (m := (textToBits p).length) (by omega) t
  simp only [List.take_length] at hwhole
  refine ⟨?_, ?_, hwhole tail, bitsToText_textToBits_take p le_rfl tail⟩
  · simpa using hwhole []
  · rw [List.dropLast_eq_take]
    exact bitsToText_textToBits_take p (by omega) [b]

/-! ## The groups of an encoded payload -/

/-- Group `g` of an encoded payload is the seven bits of its g-th kept code point (R81). -/
theorem textToBits_group {p : List Nat} {g c : Nat} (hg : (keep p)[g]? = some c) :
    ((textToBits p).drop (7 * g)).take 7 = bits7 c := by
  refine List.ext_getElem? fun j => ?_
  rw [List.getElem?_take, List.getElem?_drop]
  split
  · next hj => rw [textToBits_getElem?_group hg hj, bits7_getElem? c hj]
  · next hj => exact (List.getElem?_eq_none (Nat.not_lt.1 hj)).symm

theorem textToBits_drop_groups (p : List Nat) : (textToBits p).drop (7 * (keep p).length) = List.replicate 13 true := by
  rw [textToBits, ← flatten_bits7_length, List.drop_left]

/-- The group of seven ones is no kept code point's (R83). -/
theorem bits7_ne_ones {c : Nat} (hc : c ≤ 126) : bits7 c ≠ List.replicate 7 true := by
  have : ∀ c < 127, bits7 c ≠ List.replicate 7 true := by decide
  exact this c (Nat.lt_succ_of_le hc)

/-- Settles O13: group n is the sentinel's first seven ones, and an earlier group is a code point's of at most 126. -/
theorem firstTerminatorGroupIsTheSentinel : Obligations.FirstTerminatorGroupIsTheSentinel := by
  refine fun p g hg => ⟨fun hones => ?_, fun hn => ?_⟩
  · by_contra hne
    have hc := List.getElem?_eq_getElem (Nat.lt_of_le_of_ne hg hne)
    rw [textToBits_group hc] at hones
    exact bits7_ne_ones (le_of_mem_keep (List.mem_of_getElem? hc)) hones
  · rw [hn, textToBits_drop_groups]; rfl

/-- Settles O14: `keep` drops the character wherever it stands, and nothing else of `textToBits` sees the payload. -/
theorem droppedCharacterLeavesNoTrace : Obligations.DroppedCharacterLeavesNoTrace := by
  intro p q c hc
  have hkeep : keep (p ++ c :: q) = keep (p ++ q) := by simp [keep, hc]
  rw [textToBits, hkeep, textToBits]

/-! ## The consumption rule -/

/-- Settles O16, by the branches of the rule: a group still short, a character, the terminator. -/
theorem consumingOneBit : Obligations.ConsumingOneBit := by
  intro s b
  have hfull : s.cnt.toNat = 6 → ¬(s.cnt + 1).toNat < 7 := fun h => by rw [cnt_succ (by omega)]; omega
  refine ⟨fun h => ?_, fun h hchar => ?_, fun h hterm => ?_⟩
  · exact consume_partial b (by rw [cnt_succ (by omega)]; omega)
  · exact (if_neg (hfull h)).trans (if_neg hchar)
  · refine ((if_neg (hfull h)).trans (if_pos hterm)).trans ?_
    rw [shiftIn, hterm]
    rfl

/-- Settles O17, by induction on the bits: the bit that stops is reached before the appended ones. -/
theorem bitsAfterTheTerminatorAreIgnored : Obligations.BitsAfterTheTerminatorAreIgnored := by
  intro s bits rest h
  induction bits generalizing s with
  | nil => cases h
  | cons b bits ih =>
    rw [List.cons_append, consumeAll, consumeAll]
    rw [consumeAll] at h
    split
    · rfl
    · next hgo => rw [if_neg hgo] at h; exact ih _ h

/-! ## ENCODE and DECODE as commands -/

@[simp] theorem payloadSeq_length (s : State) : s.payloadSeq.length = s.payloadLen := by simp [State.payloadSeq]

@[simp] theorem bitsSeq_length (s : State) : s.bitsSeq.length = s.bitsLen := by simp [State.bitsSeq]

theorem exec_encode {s : State} (hs : s.Ready) :
    exec .encode s = .next { s with
      op := .encode
      bits := textToBits s.payloadSeq
      bitsLen := 7 * (keep s.payloadSeq).length + 13
      outcome := .success
      phase := .done
      freeBits := s.freeBits + 1 } := by
  rw [exec_ready hs, ← textToBits_length, ← encodeLoop_eq]
  rfl

/-- Settles O11: ENCODE's loop is `textToBits`, whose length is `7n + 13`. -/
theorem encodeSetsTheBitstream : Obligations.EncodeSetsTheBitstream := by
  refine ⟨rfl, fun s hs => ⟨?_, exec_encode hs⟩⟩
  calc (keep s.payloadSeq).length ≤ s.payloadSeq.length := List.length_filter_le ..
    _ = s.payloadLen := payloadSeq_length s

/-- Settles O15: the bits are consumed from an empty accumulator, where consuming is the recursion of R126. -/
theorem decodeIsItsFunctionForm : Obligations.DecodeIsItsFunctionForm := by
  refine ⟨rfl, fun s hs => ⟨fun t ht => ?_, fun hnone => ?_⟩⟩
  · have hall := consumeAll_found s.bitsSeq (s := clearDecoder { s with op := .decode }) rfl rfl ht
    refine (exec_ready hs .decode).trans (congrArg _ ?_)
    refine (if_pos (congrArg Prod.snd hall)).trans (congrArg (fun r => finishFound r.1) hall)
  · obtain ⟨x, hall⟩ := consumeAll_notFound s.bitsSeq (s := clearDecoder { s with op := .decode }) rfl rfl hnone
    refine ⟨[], (exec_ready hs .decode).trans (congrArg _ ?_)⟩
    refine (if_neg (Bool.eq_false_iff.1 (congrArg Prod.snd hall))).trans ?_
    refine (congrArg (fun r => finishNotFound r.1) hall).trans ?_
    rw [bitsSeq_length]
    rfl

end Sys2Proof.Machine

/-! PROOFS. Command words, and what the host does: a write to CMD, a wait, an operand loaded, a breach of the exclusive
borrow (spec/30_encoding.md section 3, spec/10_state.md sections 4 and 5, spec/20_memory.md section 6,
spec/42_sequencing.md). -/

namespace Sys2Proof.Machine

/-! ## Command words -/

/-- Settles O1: the bytes and table words of R93 are closed terms, and the decoder evaluates on them. -/
theorem commandWordsDecode : Obligations.CommandWordsDecode := by
  unfold Obligations.CommandWordsDecode
  decide

theorem decodeCmd_encode (i : Instr) : decodeCmd (encode i) = i := by cases i <;> rfl

theorem encode_decodeCmd (c : CmdWord) : encode (decodeCmd c) = c := by revert c; decide

theorem decodeBytes_encodeBytes (i : Instr) (rest : List Byte) :
    decodeBytes (encodeBytes i ++ rest) = .ok (i, rest) := by
  cases i <;> rfl

/-- Settles O2, by the four operations and the four words. -/
theorem decodeAndEncodeAgree : Obligations.DecodeAndEncodeAgree :=
  ⟨fun i rest _ => decodeBytes_encodeBytes i rest, decodeCmd_encode, encode_decodeCmd⟩

/-- `withFetchWord` puts the write of each of the four words in front of the host's actions. -/
theorem withFetchWord_eq (s : State) {w : Nat} (hw : w < 4) :
    s.withFetchWord 8 w = { s with host := .writeCmd (BitVec.ofNat 2 w) :: s.host } := by
  interval_cases w <;> rfl

/-- Settles O3: the host's next action is the write, and its meaning is `exec` of the word. -/
theorem stepRunsTheCommandWritten : Obligations.StepRunsTheCommandWritten := by
  refine ⟨fun s c rest => step_writeCmd, fun s w hw => ?_⟩
  rw [withFetchWord_eq s hw]
  exact step_writeCmd rfl

/-! ## While the host waits -/

theorem step_of_no_host {s : State} (hh : s.host = []) : step s = sequencer s := by
  unfold step
  rw [hh]

theorem step_tick {s : State} {rest : List HostAction} (hh : s.host = .tick :: rest) :
    step s = sequencer { s with host := rest } := step_of_host hh

/-- With nothing to do the block holds its registers (R218). -/
theorem sequencer_ready {s : State} (hs : s.Ready) : sequencer s = .next s := by
  unfold sequencer
  rcases hs with h | h <;> rw [h]

/-- Settles O4, action by action. -/
theorem stepSequencesWhileTheHostWaits : Obligations.StepSequencesWhileTheHostWaits := by
  refine fun s => ⟨step_of_no_host, fun _ => step_tick, fun rest hh hr => ?_, fun _ => step_await, fun hh hs => ?_⟩
  · exact step_quiet (.inr (by rw [hh]; rfl)) hr
  · rw [step_of_no_host hh, sequencer_ready hs]

/-- Settles O5: acceptance looks at PHASE first, and a running phase is neither IDLE nor DONE. -/
theorem busyCommandIsIgnored : Obligations.BusyCommandIsIgnored := by
  intro s c rest hr hh
  have hbusy := running_iff_not_ready.1 hr
  exact ⟨fun i => exec_busy hbusy i, (step_writeCmd hh).trans (exec_busy (s := { s with host := rest }) hbusy _)⟩

/-! ## Operands -/

/-- Settles O44: in IDLE and DONE each host action is its change. -/
theorem hostLoadsTheOperands : Obligations.HostLoadsTheOperands := by
  intro s rest hs
  refine ⟨fun v hh => ?_, fun p hh => ?_, fun n hh => ?_, fun b hh => ?_, fun n hh => ?_, fun w h hh => ?_,
    fun ch x y v hh hcell => ?_⟩ <;> refine (step_of_host hh).trans ((if_pos hs).trans ?_)
  case refine_7 => exact if_pos hcell
  all_goals rfl

/-- A buffer of at least `n` written elements, read to the count `n`, shows no unwritten element. -/
theorem map_getD_range {α : Type} {n : Nat} {l : List α} (h : n ≤ l.length) (free : Nat → α) :
    ((List.range n).map fun i => l.getD i (free i)) = l.take n := by
  refine List.ext_getElem (by simpa using h) fun i hi hi' => ?_
  have hil : i < l.length := Nat.lt_of_lt_of_le (by simpa using hi) h
  simp [List.getElem?_eq_getElem hil]

/-- Settles O45: neither sequence reaches an element nobody wrote. -/
theorem loadedBuffersReadBack : Obligations.LoadedBuffersReadBack :=
  fun _ => ⟨fun h => map_getD_range h _, fun h => map_getD_range h _⟩

/-! ## The exclusive borrow -/

/-- A change that is not itself refused is refused exactly while an operation runs. -/
theorem hostAct_refused {s : State} {change : State → Host.Outcome State Fault Refusal} {r : Refusal}
    (h : change s ≠ .refused r) : hostAct s change = .refused r ↔ r = .exclusiveBorrow ∧ s.Running := by
  rw [running_iff_not_ready]
  unfold hostAct
  split
  · next hs => exact ⟨fun hc => absurd hc h, fun hr => absurd hs hr.2⟩
  · next hs => exact ⟨fun hr => by cases hr; exact ⟨rfl, hs⟩, fun hr => by rw [hr.1]⟩

theorem hostWriteCell_not_refused (ch x y : Nat) (v : Byte) (s : State) (r : Refusal) :
    hostWriteCell ch x y v s ≠ .refused r := by
  unfold hostWriteCell
  split <;> nofun

/-- Of the host's actions only a change of an operand, of CHSEL or of the grid is refused, and only while an operation
runs (R64). -/
theorem hostStep_refused (a : HostAction) (rest : List HostAction) (s : State) (r : Refusal) :
    hostStep a rest s = .refused r ↔ r = .exclusiveBorrow ∧ s.Running ∧ a.touchesOperands = true := by
  have never : hostStep a rest s ≠ .refused r → a.touchesOperands = false →
      (hostStep a rest s = .refused r ↔ r = .exclusiveBorrow ∧ s.Running ∧ a.touchesOperands = true) :=
    fun hno hf => ⟨fun h => absurd h hno, fun h => absurd h.2.2 (by rw [hf]; decide)⟩
  cases a
  case writeCmd c =>
    obtain ⟨t, ht⟩ := exec_next (decodeCmd c) { s with host := rest }
    exact never (by rw [hostStep, ht]; nofun) rfl
  case writeStatus v => exact never nofun rfl
  case tick => exact never (sequencer_not_refused _ r) rfl
  case awaitDone =>
    refine never ?_ rfl
    rw [hostStep]
    split
    · nofun
    · exact sequencer_not_refused s r
  case reset => exact never nofun rfl
  all_goals
    rw [hostStep, hostAct_refused]
    · exact and_congr_right fun _ => (and_iff_left rfl).symm
  case writeCell ch x y v => exact hostWriteCell_not_refused ch x y v _ r
  all_goals nofun

/-- Settles O10: a step is refused exactly where the host's next action is. -/
theorem refusalsAreBorrowBreaches : Obligations.RefusalsAreBorrowBreaches := by
  intro s r
  cases hh : s.host with
  | nil =>
    rw [step_of_no_host hh]
    exact ⟨fun h => absurd h (sequencer_not_refused s r), fun ⟨_, _, _, _, h, _⟩ => nomatch h⟩
  | cons a rest =>
    rw [step_of_host hh, hostStep_refused]
    refine and_congr_right fun _ => and_congr_right fun _ => ⟨fun h => ⟨a, rest, rfl, h⟩, ?_⟩
    rintro ⟨_, _, heq, h⟩
    cases heq
    exact h

end Sys2Proof.Machine

/-! PROOFS. The flip's bounds, the order of the scan, a set and the gets after it, and single transitions of EMBED and
EXTRACT (spec/20_memory.md sections 1 and 4, spec/41_carrier_codec.md). -/

namespace Sys2Proof.Machine

/-! ## The parity flip -/

/-- The flip leaves a value of the bit's parity alone and moves any other by exactly 1 (R153). -/
theorem parityFlip_cases (v : Byte) (b : Bool) :
    (v.toNat % 2 = b.toNat ∧ parityFlip v b = v) ∨
    (v.toNat % 2 ≠ b.toNat ∧
      ((parityFlip v b).toNat = v.toNat + 1 ∨ v.toNat = (parityFlip v b).toNat + 1)) := by
  obtain ⟨hmatch, hmax, hup⟩ := flipFollowsTheRule v b
  by_cases hm : v.toNat % 2 = b.toNat
  · exact .inl ⟨hm, hmatch hm⟩
  · refine .inr ⟨hm, ?_⟩
    by_cases hv : v = 255
    · exact .inr (by rw [hmax hm hv, hv]; rfl)
    · exact .inl (hup hm hv)

theorem parityFlip_bounds (v : Byte) (b : Bool) :
    (parityFlip v b).toNat ≤ v.toNat + 1 ∧ v.toNat ≤ (parityFlip v b).toNat + 1 := by
  rcases parityFlip_cases v b with ⟨-, heq⟩ | ⟨-, hmove⟩
  · rw [heq]; omega
  · omega

/-- The flipped value carries the bit (R155). -/
@[simp] theorem parity_parityFlip (v : Byte) (b : Bool) : parity (parityFlip v b) = b := by
  rw [parity_eq_iff]
  have := b.toNat_lt
  rcases parityFlip_cases v b with ⟨hm, heq⟩ | ⟨hm, hmove⟩
  · rw [heq, hm]
  · omega

/-- Settles O20: the bounds from the flip's two cases; a value that carries the bit is not flipped again. -/
theorem flipIsBoundedByOne : Obligations.FlipIsBoundedByOne := by
  refine ⟨fun v b => ?_, by decide, by decide, by decide⟩
  have hpar := parity_parityFlip v b
  obtain ⟨hup, hdown⟩ := parityFlip_bounds v b
  exact ⟨hup, hdown, (parity_eq_iff _ b).1 hpar, parityFlip_of_match hpar⟩

/-! ## The order of the scan -/

/-- The pixel of linear index `k`, column and row, exists (R56). -/
theorem has_of_lt {g : Grid} {k : Nat} (hk : k < g.w * g.h) : g.Has (k / g.h) (k % g.h) := by
  have hh : 0 < g.h := Nat.pos_of_mul_pos_left (Nat.zero_lt_of_lt hk)
  exact ⟨Nat.div_lt_of_lt_mul (Nat.mul_comm g.w g.h ▸ hk), Nat.mod_lt k hh⟩

/-- Settles O47: `k` is `(k div GRID_H) × GRID_H + k mod GRID_H`. -/
theorem scanOrderIsColumnMajor : Obligations.ScanOrderIsColumnMajor := by
  refine fun w h => ⟨scanOrder_length w h, fun k hk => ?_⟩
  obtain ⟨hx, hy⟩ := has_of_lt (g := { w, h, cells := [], selectors := [] }) hk
  have := scanOrder_get hx hy
  rwa [Nat.div_add_mod'] at this

/-! ## A set and the gets after it -/

theorem gridGet_fst (s : State) (x y : Nat) :
    (gridGet s x y).map Prod.fst = if s.grid.Has x y then some (s.cell x y) else none := by
  unfold gridGet
  split <;> rfl

/-- All a set does (R52). -/
theorem gridSet_eq_some {s t : State} {x y : Nat} {v : Byte} (h : gridSet s x y v = some t) :
    s.grid.Has x y ∧ t = (s.putCell x y v).record (.set s.chsel x y v) := by
  unfold gridSet at h
  split at h
  · next hh => exact ⟨hh, (Option.some.inj h).symm⟩
  · cases h

/-- Settles O46, by read after write. -/
theorem getAnswersTheLastSet : Obligations.GetAnswersTheLastSet := by
  intro s t x y v hwf hset
  obtain ⟨hh, rfl⟩ := gridSet_eq_some hset
  refine ⟨?_, fun x' y' hne => ?_, fun ch x' y' hne => ?_⟩
  · exact (gridGet_fst ..).trans ((if_pos hh).trans (congrArg some (Grid.read_write_same hwf ..)))
  · rw [gridGet_fst, gridGet_fst]
    refine if_congr Iff.rfl (congrArg some ?_) rfl
    exact Grid.read_write_ne _ v fun ⟨_, hx, hy⟩ => hne ⟨hx.symm, hy.symm⟩
  · exact Grid.read_write_ne _ v fun ⟨hch, _, _⟩ => hne hch.symm

/-! ## EMBED's transitions -/

/-- Where EMBED stops: nothing to write, or one bit left (R156). -/
theorem embed_ends_iff (s : State) :
    s.bitsLen = 0 ∨ s.idx = stopCount s.bitsLen ↔ s.bitsLen = 0 ∨ s.idx + 1 = s.bitsLen := by
  simp only [stopCount, Config.preserveLastBitDefect, if_true]
  omega

theorem scanEmbed_of_ends {s : State} (h : s.bitsLen = 0 ∨ s.idx + 1 = s.bitsLen) : scanEmbed s = finish s .success :=
  if_pos ((embed_ends_iff s).2 h)

theorem scanEmbed_of_exhausted {s : State} (h : s.Exhausted) : scanEmbed s = finish s .success := by
  unfold scanEmbed
  rw [if_pos h, ite_self]

theorem scanEmbed_of_visit {s : State} (h : ¬(s.bitsLen = 0 ∨ s.idx + 1 = s.bitsLen)) (hx : ¬s.Exhausted) :
    scanEmbed s = { s with phase := .readOrWrite } :=
  (if_neg (mt (embed_ends_iff s).1 h)).trans (if_neg hx)

theorem sequencer_scanEmbed {s : State} (hp : s.phase = .scanning) (ho : s.op = .embed) :
    sequencer s = .next (scanEmbed s) := by
  unfold sequencer scanning
  simp only [hp, ho]

/-- Settles O22, by the branches of the Scanning step. -/
theorem embedScanningStep : Obligations.EmbedScanningStep := by
  refine fun s hp ho => ⟨fun hend => ?_, fun _ _ hx => ?_, fun h0 hl hh hw => ?_⟩ <;> rw [sequencer_scanEmbed hp ho]
  · rw [scanEmbed_of_ends hend]; rfl
  · rw [scanEmbed_of_exhausted hx]; rfl
  · rw [scanEmbed_of_visit (not_or.2 ⟨h0, hl⟩) (not_or.2 ⟨hh, hw⟩)]

/-- The state after EMBED's visit of the pixel (x, y), but for PHASE. -/
def embedVisit (s : State) (x y : Nat) : State :=
  { s with
    idx := s.idx + 1
    grid := visitedGrid s x y
    log := (visitAccesses s.chsel x y (s.cell x y) (s.bitAt s.idx)).reverse ++ s.log }

theorem visitEmbed_eq_embedVisit {s : State} {x y : Nat} (h : s.grid.Has x y) :
    visitEmbed s x y = some (embedVisit s x y) := visitEmbed_of_has h

theorem sequencer_visitEmbed {s : State} (hp : s.phase = .readOrWrite) (ho : s.op = .embed) (hh : s.grid.Has s.x s.y) :
    sequencer s = .next { embedVisit s s.x s.y with phase := .advance } := by
  unfold sequencer readOrWrite
  simp only [hp, ho, readOrWriteEmbed, visitEmbed_eq_embedVisit hh, Option.map_some, orFault]

/-- Settles O23: the grid and the transactions of a visit, on a match and on a mismatch. -/
theorem embedVisitsOnePixel : Obligations.EmbedVisitsOnePixel := by
  refine fun s hp ho hh => ⟨fun hv => ?_, fun hv => ?_⟩ <;>
    rw [sequencer_visitEmbed hp ho hh, embedVisit, visitedGrid, visitAccesses]
  · rw [if_pos hv, if_pos hv]; rfl
  · rw [if_neg hv, if_neg hv]; rfl

/-! ## EXTRACT's transitions -/

theorem exec_extract {s : State} (hs : s.Ready) :
    exec .extract s = .next (startScan (clearDecoder { s with op := .extract })) := exec_ready hs .extract

/-- Settles O27: an accepted EXTRACT is its accept rule, which looks at nothing. -/
theorem extractStartsItsScan : Obligations.ExtractStartsItsScan := ⟨rfl, fun _ => exec_extract⟩

theorem scanExtract_of_exhausted {s : State} (h : s.Exhausted) : scanExtract s = finishNotFound s := if_pos h

theorem scanExtract_of_visit {s : State} (h : ¬s.Exhausted) : scanExtract s = { s with phase := .readOrWrite } :=
  if_neg h

theorem sequencer_scanExtract {s : State} (hp : s.phase = .scanning) (ho : s.op = .extract) :
    sequencer s = .next (scanExtract s) := by
  unfold sequencer scanning
  simp only [hp, ho]

/-- Settles O28, by the branches of the Scanning step. -/
theorem extractScanningStep : Obligations.ExtractScanningStep := by
  refine fun s hp ho => ⟨fun hx => ⟨[], ?_⟩, fun hh hw => ?_⟩ <;> rw [sequencer_scanExtract hp ho]
  · rw [scanExtract_of_exhausted hx]; rfl
  · rw [scanExtract_of_visit (not_or.2 ⟨hh, hw⟩)]

end Sys2Proof.Machine

/-! PROOFS. The invariant: at reset, after every step, and what follows from it of faults and of the host's reads
(spec/10_state.md, spec/20_memory.md section 3, spec/41_carrier_codec.md section 1, spec/60_exceptions.md section 1). -/

namespace Sys2Proof.Machine

/-! ## One bit consumed -/

/-- The three things one bit can do where CNT is at most 6 (R119, R25). -/
theorem consume_cases {s : State} (h : s.cnt.toNat < 7) (b : Bool) :
    (s.cnt.toNat < 6 ∧ consume s b = (s.setDecoder (shiftIn s.acc b) (s.cnt + 1) s.text, false)) ∨
    (s.cnt.toNat = 6 ∧ shiftIn s.acc b ≠ Config.terminator ∧
      consume s b = (s.setDecoder 0#7 0#3 (s.text ++ [shiftIn s.acc b]), false)) ∨
    (s.cnt.toNat = 6 ∧ shiftIn s.acc b = Config.terminator ∧ consume s b = (s.setDecoder 127#7 0#3 s.text, true)) := by
  obtain ⟨hshort, hchar, hterm⟩ := consumingOneBit s b
  rcases Nat.lt_or_ge s.cnt.toNat 6 with h6 | h6
  · exact .inl ⟨h6, hshort h6⟩
  · have h6 : s.cnt.toNat = 6 := by omega
    by_cases hv : shiftIn s.acc b = Config.terminator
    · exact .inr (.inr ⟨h6, hv, hterm h6 hv⟩)
    · exact .inr (.inl ⟨h6, hv, hchar h6 hv⟩)

section
variable (s : State) (b : Bool)

@[simp] theorem consume_x : (consume s b).1.x = s.x := by rw [consume_frame, setDecoder_x]
@[simp] theorem consume_y : (consume s b).1.y = s.y := by rw [consume_frame, setDecoder_y]
@[simp] theorem consume_idx : (consume s b).1.idx = s.idx := by rw [consume_frame, setDecoder_idx]
@[simp] theorem consume_phase : (consume s b).1.phase = s.phase := by rw [consume_frame, setDecoder_phase]
@[simp] theorem consume_outcome : (consume s b).1.outcome = s.outcome := by rw [consume_frame, setDecoder_outcome]
@[simp] theorem consume_op : (consume s b).1.op = s.op := by rw [consume_frame, setDecoder_op]
@[simp] theorem consume_grid : (consume s b).1.grid = s.grid := by rw [consume_frame, setDecoder_grid]
@[simp] theorem consume_host : (consume s b).1.host = s.host := by rw [consume_frame, setDecoder_host]
@[simp] theorem consume_log : (consume s b).1.log = s.log := by rw [consume_frame, setDecoder_log]

end

/-- Every bit but the terminator's last is in TEXT or ACC. -/
theorem consume_count {s : State} (h : s.cnt.toNat < 7) {b : Bool} (hgo : (consume s b).2 = false) :
    7 * (consume s b).1.text.length + (consume s b).1.cnt.toNat = 7 * s.text.length + s.cnt.toNat + 1 := by
  rcases consume_cases h b with ⟨h6, hc⟩ | ⟨h6, -, hc⟩ | ⟨-, -, hc⟩ <;> rw [hc] at hgo ⊢
  · simp only [setDecoder_text, setDecoder_cnt, cnt_succ h]; omega
  · simp only [setDecoder_text, setDecoder_cnt, List.length_append, List.length_singleton, BitVec.toNat_ofNat]; omega
  · cases hgo

/-- A bit never puts the terminator into TEXT (R120). -/
theorem consume_text_ne {s : State} (h : s.cnt.toNat < 7) (ht : ∀ c ∈ s.text, c ≠ Config.terminator) (b : Bool) :
    ∀ c ∈ (consume s b).1.text, c ≠ Config.terminator := by
  rcases consume_cases h b with ⟨-, hc⟩ | ⟨-, hv, hc⟩ | ⟨-, -, hc⟩ <;> rw [hc]
  · exact ht
  · exact List.forall_mem_append.2 ⟨ht, List.forall_mem_singleton.2 hv⟩
  · exact ht

theorem shiftIn_toNat_le (a : Group) (b : Bool) : (shiftIn a b).toNat ≤ 2 * a.toNat + 1 := by
  revert a b; decide

/-- ACC holds CNT bits after a bit as before it (R24). -/
theorem consume_acc_lt {s : State} (h : s.cnt.toNat < 7) (ha : s.acc.toNat < 2 ^ s.cnt.toNat) {b : Bool}
    (hgo : (consume s b).2 = false) : (consume s b).1.acc.toNat < 2 ^ (consume s b).1.cnt.toNat := by
  rcases consume_cases h b with ⟨-, hc⟩ | ⟨-, -, hc⟩ | ⟨-, -, hc⟩ <;> rw [hc] at hgo ⊢
  · have hle := shiftIn_toNat_le s.acc b
    rw [setDecoder_acc, setDecoder_cnt, cnt_succ h, Nat.pow_succ]
    omega
  · exact (by decide : (0#7).toNat < 2 ^ (0#3).toNat)
  · cases hgo

theorem consumeAll_text_ne (bs : List Bool) {s : State} (h : s.cnt.toNat < 7)
    (ht : ∀ c ∈ s.text, c ≠ Config.terminator) : ∀ c ∈ (consumeAll s bs).1.text, c ≠ Config.terminator := by
  induction bs generalizing s with
  | nil => exact ht
  | cons b bs ih =>
    rw [consumeAll]
    split
    · exact consume_text_ne h ht b
    · exact ih (consume_cnt_lt s b) (consume_text_ne h ht b)

theorem consumeAll_frame (bs : List Bool) (s : State) :
    (consumeAll s bs).1 =
      s.setDecoder (consumeAll s bs).1.acc (consumeAll s bs).1.cnt (consumeAll s bs).1.text := by
  induction bs generalizing s with
  | nil => rfl
  | cons b bs ih =>
    rw [consumeAll]
    split
    · exact consume_frame s b
    · obtain ⟨a, c, t, hc⟩ : ∃ a c t, (consume s b).1 = s.setDecoder a c t := ⟨_, _, _, consume_frame s b⟩
      rw [hc]
      exact ih _

@[simp] theorem consumeAll_op (bs : List Bool) (s : State) : (consumeAll s bs).1.op = s.op := by
  rw [consumeAll_frame, setDecoder_op]
@[simp] theorem consumeAll_grid (bs : List Bool) (s : State) : (consumeAll s bs).1.grid = s.grid := by
  rw [consumeAll_frame, setDecoder_grid]
@[simp] theorem consumeAll_log (bs : List Bool) (s : State) : (consumeAll s bs).1.log = s.log := by
  rw [consumeAll_frame, setDecoder_log]

/-! ## The invariant phase by phase -/

theorem PointerInv.of_scanning {s : State} (hp : s.phase = .scanning) (hidx : s.x * s.grid.h + s.y = s.idx)
    (hx : s.x ≤ s.grid.w) (hy : s.y < max s.grid.h 1) (hend : s.x = s.grid.w → s.y = 0) : PointerInv s :=
  ⟨fun _ => ⟨hidx, hx, hy, hend⟩, fun h => (nomatch hp.symm.trans h), fun h => (nomatch hp.symm.trans h)⟩

theorem PointerInv.of_visiting {s : State} (hp : s.phase = .readOrWrite) (hh : s.grid.Has s.x s.y)
    (hidx : s.x * s.grid.h + s.y = s.idx) : PointerInv s :=
  ⟨fun h => (nomatch hp.symm.trans h), fun _ => ⟨hh, hidx⟩, fun h => (nomatch hp.symm.trans h)⟩

theorem PointerInv.of_advancing {s : State} (hp : s.phase = .advance) (hh : s.grid.Has s.x s.y)
    (hidx : s.x * s.grid.h + s.y + 1 = s.idx) : PointerInv s :=
  ⟨fun h => (nomatch hp.symm.trans h), fun h => (nomatch hp.symm.trans h), fun _ => ⟨hh, hidx⟩⟩

/-- What a running operation keeps of its own (R151, R156, R24). -/
def OperationInv (s : State) : Prop := (s.op = .embed ∧ EmbedInv s) ∨ (s.op = .extract ∧ ExtractInv s)

theorem Inv.operation {s : State} (h : Inv s) (hr : s.Running) : OperationInv s :=
  (h.op hr).imp (fun ho => ⟨ho, h.embed hr ho⟩) (fun ho => ⟨ho, h.extract hr ho⟩)

theorem Inv.of_running {s : State} (hr : s.Running) (hcells : Memory.wf s.grid.cells) (hpointer : PointerInv s)
    (hcnt : s.cnt.toNat < 7) (hop : OperationInv s) (htext : ∀ c ∈ s.text, c ≠ Config.terminator) : Inv s where
  cells := hcells
  op _ := hop.imp And.left And.left
  pointer := hpointer
  cnt := hcnt
  embed _ ho := by
    rcases hop with ⟨-, h⟩ | ⟨ho', -⟩
    · exact h
    · cases ho.symm.trans ho'
  extract _ ho := by
    rcases hop with ⟨ho', -⟩ | ⟨-, h⟩
    · cases ho.symm.trans ho'
    · exact h
  idle hp := absurd (.inl hp) (running_iff_not_ready.1 hr)
  done hp := absurd (.inr hp) (running_iff_not_ready.1 hr)
  text := htext

theorem Inv.of_ready {s : State} (hs : s.Ready) (hcells : Memory.wf s.grid.cells) (hcnt : s.cnt.toNat < 7)
    (hidle : s.phase = .idle → s.outcome = .none) (hdone : s.phase = .done → DoneInv s)
    (htext : ∀ c ∈ s.text, c ≠ Config.terminator) : Inv s :=
  have hno : ¬s.Running := fun hr => running_iff_not_ready.1 hr hs
  { cells := hcells
    op := fun hr => absurd hr hno
    pointer := ⟨fun hp => absurd (.inl hp) hno, fun hp => absurd (.inr (.inl hp)) hno,
      fun hp => absurd (.inr (.inr hp)) hno⟩
    cnt := hcnt
    embed := fun hr => absurd hr hno
    extract := fun hr => absurd hr hno
    idle := hidle
    done := hdone
    text := htext }

theorem Inv.of_done {s : State} (hp : s.phase = .done) (hcells : Memory.wf s.grid.cells) (hcnt : s.cnt.toNat < 7)
    (hdone : DoneInv s) (htext : ∀ c ∈ s.text, c ≠ Config.terminator) : Inv s :=
  .of_ready (.inr hp) hcells hcnt (fun h => nomatch hp.symm.trans h) (fun _ => hdone) htext

/-! ## The results at DONE -/

theorem DoneInv.of_encode {s : State} (ho : s.op = .encode) (hs : s.outcome = .success) : DoneInv s := by
  constructor <;> simp [ho, hs]

theorem DoneInv.of_embed {s : State} (ho : s.op = .embed) (hs : s.outcome = .success ∨ s.outcome = .capacityExceeded) :
    DoneInv s := by
  rcases hs with hs | hs <;> constructor <;> simp [ho, hs]

theorem DoneInv.of_found {s : State} (ho : s.op = .decode ∨ s.op = .extract) (hs : s.outcome = .success)
    (hl : s.textLen = s.text.length) : DoneInv s := by
  rcases ho with ho | ho <;> constructor <;> simp [ho, hs, hl]

theorem DoneInv.of_notFound {s : State} (ho : s.op = .decode ∨ s.op = .extract) (hs : s.outcome = .notFound)
    (hl : s.textLen = 0) : DoneInv s := by
  rcases ho with ho | ho <;> constructor <;> simp [ho, hs, hl]

theorem finishFound_inv {s : State} (ho : s.op = .decode ∨ s.op = .extract) (hcells : Memory.wf s.grid.cells)
    (hcnt : s.cnt.toNat < 7) (htext : ∀ c ∈ s.text, c ≠ Config.terminator) : Inv (finishFound s) :=
  .of_done rfl hcells hcnt (.of_found ho rfl rfl) htext

theorem finishNotFound_inv {s : State} (ho : s.op = .decode ∨ s.op = .extract) (hcells : Memory.wf s.grid.cells)
    (hcnt : s.cnt.toNat < 7) : Inv (finishNotFound s) :=
  .of_done rfl hcells hcnt (.of_notFound ho rfl rfl) nofun

/-! ## The pointer in SCANNING -/

/-- A pointer of SCANNING that is not past the grid is at one of its pixels (R23, R55). -/
theorem has_of_scanning {s : State} (h : PointerInv s) (hp : s.phase = .scanning) (hx : ¬s.Exhausted) :
    s.grid.Has s.x s.y := by
  obtain ⟨-, hxw, hyh, -⟩ := h.scanning hp
  obtain ⟨hh, hw⟩ := not_or.1 hx
  exact ⟨Nat.lt_of_le_of_ne hxw hw, by rwa [Nat.max_eq_left (Nat.one_le_iff_ne_zero.2 hh)] at hyh⟩

/-- An exhausted grid has had every cell counted (R165). -/
theorem idx_of_exhausted {s : State} (h : PointerInv s) (hp : s.phase = .scanning) (hx : s.Exhausted) :
    s.idx = s.grid.capacity := by
  obtain ⟨hidx, -, hyh, hend⟩ := h.scanning hp
  rw [← hidx, Grid.capacity]
  rcases hx with hh | hw
  · rw [hh] at hyh ⊢
    rw [Nat.lt_one_iff.1 hyh]
    rfl
  · rw [hend hw, hw]; rfl

/-- EMBED reaches its stopping count before the grid is exhausted (R156, R157). -/
theorem embed_not_exhausted {s : State} (hpt : PointerInv s) (he : EmbedInv s) (hp : s.phase = .scanning)
    (hends : ¬(s.bitsLen = 0 ∨ s.idx + 1 = s.bitsLen)) : ¬s.Exhausted := by
  intro hx
  have hidx := idx_of_exhausted hpt hp hx
  have hfits := he.fits
  have := he.scanning hp
  omega

/-! ## The sequencer keeps the invariant -/

theorem scanEmbed_inv {s : State} (h : Inv s) (hp : s.phase = .scanning) (ho : s.op = .embed) : Inv (scanEmbed s) := by
  have hr : s.Running := .inl hp
  have hend : Inv (finish s .success) := .of_done rfl h.cells h.cnt (.of_embed ho (.inl rfl)) h.text
  by_cases hends : s.bitsLen = 0 ∨ s.idx + 1 = s.bitsLen
  · rw [scanEmbed_of_ends hends]; exact hend
  · have hx := embed_not_exhausted h.pointer (h.embed hr ho) hp hends
    have hidx := (h.embed hr ho).scanning hp
    rw [scanEmbed_of_visit hends hx]
    exact .of_running (.inr (.inl rfl)) h.cells
      (.of_visiting rfl (has_of_scanning (s := s) h.pointer hp hx) (h.pointer.scanning hp).1) h.cnt
      (.inl ⟨ho, (h.embed hr ho).fits, nofun, fun _ => show s.idx + 1 < s.bitsLen by omega, nofun⟩) h.text

theorem scanExtract_inv {s : State} (h : Inv s) (hp : s.phase = .scanning) (ho : s.op = .extract) :
    Inv (scanExtract s) := by
  by_cases hx : s.Exhausted
  · rw [scanExtract_of_exhausted hx]
    exact finishNotFound_inv (.inr ho) h.cells h.cnt
  · rw [scanExtract_of_visit hx]
    obtain ⟨hacc, hcount⟩ := h.extract (.inl hp) ho
    exact .of_running (.inr (.inl rfl)) h.cells
      (.of_visiting rfl (has_of_scanning (s := s) h.pointer hp hx) (h.pointer.scanning hp).1) h.cnt
      (.inr ⟨ho, hacc, hcount⟩) h.text

theorem embedVisit_inv {s : State} (h : Inv s) (hp : s.phase = .readOrWrite) (ho : s.op = .embed) :
    Inv { embedVisit s s.x s.y with phase := .advance } := by
  obtain ⟨hh, hidx⟩ := h.pointer.visiting hp
  have he := h.embed (.inr (.inl hp)) ho
  refine .of_running (.inr (.inr rfl)) (visitedGrid_wf h.cells _ _) (.of_advancing rfl ?_ ?_) h.cnt
    (.inl ⟨ho, ?_, nofun, nofun, fun _ => he.visiting hp⟩) h.text
  · simpa [embedVisit, Grid.Has] using hh
  · simpa [embedVisit] using hidx
  · exact (visitedGrid_capacity s s.x s.y).symm ▸ he.fits

theorem extractVisit_inv {s : State} (h : Inv s) (hp : s.phase = .readOrWrite) (ho : s.op = .extract) (a : Access)
    (b : Bool) : Inv (afterConsume (consume { s.record a with idx := s.idx + 1 } b)) := by
  obtain ⟨hh, hidx⟩ := h.pointer.visiting hp
  obtain ⟨hacc, hcount⟩ := h.extract (.inr (.inl hp)) ho
  have hcnt := consume_cnt_lt { s.record a with idx := s.idx + 1 } b
  have htext := consume_text_ne (s := { s.record a with idx := s.idx + 1 }) h.cnt h.text b
  unfold afterConsume
  split
  · exact finishFound_inv (.inr (by simpa using ho)) (by simpa using h.cells) hcnt htext
  · next hgo =>
    have hgo := Bool.eq_false_iff.2 hgo
    refine .of_running (.inr (.inr rfl)) (by simpa using h.cells)
      (.of_advancing rfl (by simpa using hh) (by simpa using hidx)) hcnt (.inr ⟨by simpa using ho, ?_, ?_⟩) htext
    · exact consume_acc_lt (s := { s.record a with idx := s.idx + 1 }) h.cnt hacc hgo
    · have hc := consume_count (s := { s.record a with idx := s.idx + 1 }) h.cnt hgo
      simp only [record_text, record_cnt, hcount] at hc
      simpa using hc

/-- The Advance step goes to the pixel of the next linear index, or past the last column (R23, R159). -/
theorem advance_pointer {s : State} (hh : s.grid.Has s.x s.y) (hidx : s.x * s.grid.h + s.y + 1 = s.idx) :
    PointerInv (advance s) := by
  obtain ⟨hx, hy⟩ := hh
  rcases Nat.lt_or_ge (s.y + 1) s.grid.h with hlt | hge
  · rw [advance_of_lt hlt]
    exact .of_scanning rfl hidx hx.le (lt_max_of_lt_left hlt) fun hw => absurd hw hx.ne
  · rw [advance_of_le hge]
    have hrow : s.y + 1 = s.grid.h := Nat.le_antisymm hy hge
    refine .of_scanning rfl ?_ hx (lt_max_of_lt_right Nat.zero_lt_one) fun _ => rfl
    calc (s.x + 1) * s.grid.h + 0 = s.x * s.grid.h + (s.y + 1) := by rw [hrow, Nat.succ_mul, Nat.add_zero]
      _ = s.idx := hidx

theorem advance_inv {s : State} (h : Inv s) (hp : s.phase = .advance) : Inv (advance s) := by
  obtain ⟨hh, hidx⟩ := h.pointer.advancing hp
  refine .of_running (.inl (advance_phase s)) (by simpa using h.cells) (advance_pointer hh hidx)
    (by simpa using h.cnt) ?_ (by simpa using h.text)
  rcases h.operation (.inr (.inr hp)) with ⟨ho, he⟩ | ⟨ho, hacc, hcount⟩
  · refine .inl ⟨by simpa using ho, by simpa using he.fits, fun _ => .inr ?_, ?_, ?_⟩
    · simpa using he.advancing hp
    all_goals exact fun hp' => nomatch (advance_phase s).symm.trans hp'
  · exact .inr ⟨by simpa using ho, by simpa using hacc, by simpa using hcount⟩

theorem sequencer_inv {s t : State} (h : Inv s) (hst : sequencer s = .next t) : Inv t := by
  rcases sequencer_cases hst with ⟨-, rfl⟩ | ⟨hp, ho, rfl⟩ | ⟨hp, ho, rfl⟩ | ⟨hp, ho, -, rfl⟩ | ⟨hp, ho, -, rfl⟩ |
    ⟨hp, rfl⟩
  · exact h
  · exact scanEmbed_inv h hp ho
  · exact scanExtract_inv h hp ho
  · exact embedVisit_inv h hp ho
  · exact extractVisit_inv h hp ho _ _
  · exact advance_inv h hp

/-! ## The commands keep it -/

theorem decodeRule_inv {s : State} (hcells : Memory.wf s.grid.cells) (ho : s.op = .decode) : Inv (decodeRule s) := by
  have hclear : (clearDecoder s).cnt.toNat < 7 := (by decide : (0#3).toNat < 7)
  have hcnt := consumeAll_cnt_lt s.bitsSeq hclear
  unfold decodeRule
  split
  · exact finishFound_inv (.inl (by simpa using ho)) (by simpa using hcells) hcnt (consumeAll_text_ne _ hclear nofun)
  · exact finishNotFound_inv (.inl (by simpa using ho)) (by simpa using hcells) hcnt

/-- The scan starts at the pixel of index 0. -/
theorem startScan_pointer (s : State) : PointerInv (startScan s) :=
  .of_scanning rfl (Nat.zero_mul _) (Nat.zero_le _) (lt_max_of_lt_right Nat.zero_lt_one) fun _ => rfl

theorem embedRule_inv {s : State} (ho : s.op = .embed) (hcells : Memory.wf s.grid.cells) (hcnt : s.cnt.toNat < 7)
    (htext : ∀ c ∈ s.text, c ≠ Config.terminator) : Inv (embedRule s) := by
  unfold embedRule
  split
  · exact .of_done rfl hcells hcnt (.of_embed ho (.inr rfl)) htext
  · next hfits =>
    exact .of_running (.inl rfl) hcells (startScan_pointer s) hcnt
      (.inl ⟨ho, Nat.not_lt.1 hfits, fun _ => .inl rfl, nofun, nofun⟩) htext

theorem extractRule_inv {s : State} (ho : s.op = .extract) (hcells : Memory.wf s.grid.cells) :
    Inv (extractRule s) :=
  .of_running (.inl rfl) hcells (startScan_pointer _) (by decide : (0#3).toNat < 7)
    (.inr ⟨ho, (by decide : (0#7).toNat < 2 ^ (0#3).toNat), rfl⟩) nofun

/-- The accept rule of a command, from a state that meets the invariant and with OP already written. -/
theorem acceptRule_inv {s : State} (h : Inv s) (i : Instr) : Inv (acceptRule i { s with op := i }) := by
  cases i with
  | encode => exact .of_done rfl h.cells h.cnt (.of_encode rfl rfl) h.text
  | decode => exact decodeRule_inv h.cells rfl
  | embed => exact embedRule_inv rfl h.cells h.cnt h.text
  | extract => exact extractRule_inv rfl h.cells

theorem exec_inv {s t : State} {i : Instr} (h : Inv s) (hst : exec i s = .next t) : Inv t := by
  by_cases hs : s.Ready
  · rw [exec_ready hs] at hst
    cases hst
    exact acceptRule_inv h i
  · rw [exec_busy hs] at hst
    cases hst
    exact h

/-! ## The host keeps it -/

/-- What the host loads in IDLE and DONE is no part of the invariant, but for the cells. -/
theorem Inv.withOperands {s : State} (h : Inv s) (hs : s.Ready) (host : List HostAction) (chsel : Nat)
    (payload : List Nat) (payloadLen : Nat) (bits : List Bool) (bitsLen : Nat) {grid : Grid}
    (hcells : Memory.wf grid.cells) (freePayload freeBits : Nat) :
    Inv { s with host, chsel, payload, payloadLen, bits, bitsLen, grid, freePayload, freeBits } :=
  .of_ready hs hcells h.cnt h.idle
    (fun hp => let d := h.done hp; ⟨d.encode, d.decode, d.embed, d.extract, d.textLen, d.withdrawn⟩) h.text

theorem resetAct_inv {s : State} (hcells : Memory.wf s.grid.cells) : Inv (resetAct s) := by
  obtain ⟨g, l, heq, hg⟩ := resetAct_cases s
  have hwf : Memory.wf g.cells := by
    rcases hg with ⟨rfl, -⟩ | ⟨-, -, rfl, -⟩
    · exact hcells
    · exact visitedGrid_wf hcells _ _
  rw [heq]
  exact .of_ready (.inl rfl) hwf (by decide : (0#3).toNat < 7) (fun _ => rfl) nofun nofun

/-- Settles O7: reset is IDLE with no outcome, no text and no listed cell. -/
theorem resetMeetsTheInvariant : Obligations.ResetMeetsTheInvariant :=
  .of_ready (.inl rfl) State.reset_cells_wf (by decide) (fun _ => rfl) nofun nofun

/-- Settles O6: the fields of `State.reset` as written. -/
theorem resetStateHoldsTheStatedValues : Obligations.ResetStateHoldsTheStatedValues :=
  ⟨rfl, rfl, rfl, rfl, rfl, rfl, rfl, rfl, rfl, rfl, rfl, rfl⟩

/-- Settles O8, by what a step can do: a transition, a command, a host write, an action without effect, a reset. -/
theorem everyStepKeepsTheInvariant : Obligations.EveryStepKeepsTheInvariant := by
  intro s t h hst
  rcases step_cases hst with ⟨hs, hseq⟩ | ⟨c, rest, -, hexec⟩ | ⟨hr, hcells, heq⟩ | ⟨rest, rfl⟩ | ⟨rest, -, rfl⟩
  · exact sequencer_inv (h.withHost hs) hseq
  · exact exec_inv (h.withHost rest) hexec
  · rw [heq]
    exact h.withOperands hr _ _ _ _ _ _ (hcells h.cells) _ _
  · exact h.withHost rest
  · exact resetAct_inv h.cells

/-! ## Faults -/

/-- From the invariant no transition of the sequencer faults (R55, R183, R200). -/
theorem Inv.sequencer_ne_fault {s : State} (h : Inv s) (r : Fault) : sequencer s ≠ .fault r := by
  intro hf
  obtain ⟨hp, hwhy⟩ := sequencer_fault hf
  have hop := h.op (hp.imp_right .inl)
  rcases hwhy with hop' | ⟨hv, hno⟩
  · rcases hop with ho | ho <;> rcases hop' with ho' | ho' <;> cases ho.symm.trans ho'
  · exact hno (h.pointer.visiting hv).1

/-- Only a transition of the sequencer and a host write of a cell that does not exist can fault. -/
theorem step_fault {s : State} {r : Fault} (h : step s = .fault r) :
    (∃ hs, sequencer { s with host := hs } = .fault r) ∨
    (r = .outsideGrid ∧ ∃ ch x y v rest, s.host = .writeCell ch x y v :: rest ∧ ¬s.grid.Has x y) := by
  cases hh : s.host with
  | nil => exact .inl ⟨s.host, step_of_no_host hh ▸ h⟩
  | cons a rest =>
    rw [step_of_host hh] at h
    cases a <;> simp only [hostStep, hostAct, hostWriteCell] at h
    case writeCmd c =>
      obtain ⟨t, ht⟩ := exec_next (decodeCmd c) { s with host := rest }
      cases ht.symm.trans h
    case tick => exact .inl ⟨rest, h⟩
    case awaitDone =>
      split at h
      · cases h
      · exact .inl ⟨s.host, h⟩
    case writeCell ch x y v =>
      split at h
      · split at h
        · cases h
        · next hno => cases h; exact .inr ⟨rfl, ch, x, y, v, rest, rfl, hno⟩
      · cases h
    case writeStatus => cases h
    case reset => cases h
    all_goals split at h <;> cases h

/-- Settles O9: the sequencer does not fault from the invariant, which leaves the host's write. -/
theorem blockNeverFaults : Obligations.BlockNeverFaults := by
  intro s r h hf
  rcases step_fault hf with ⟨hs, hseq⟩ | hwrite
  · exact absurd hseq ((h.withHost hs).sequencer_ne_fault r)
  · exact hwrite

/-! ## What the host reads -/

/-- At DONE every operation has an outcome (R27). -/
theorem DoneInv.outcome_ne_none {s : State} (h : DoneInv s) : s.outcome ≠ .none := by
  intro hn
  cases ho : s.op with
  | encode => cases hn.symm.trans (h.encode ho)
  | decode => rcases h.decode ho with h | h <;> cases hn.symm.trans h
  | embed => rcases h.embed ho with h | h <;> cases hn.symm.trans h
  | extract => rcases h.extract ho with h | h <;> cases hn.symm.trans h

theorem toNat_le_of_ne_terminator {c : Group} (h : c ≠ Config.terminator) : c.toNat ≤ 126 := by
  have hlt := c.isLt
  have hne : c.toNat ≠ 127 := fun he => h (BitVec.eq_of_toNat_eq he)
  omega

/-- Settles O48: the conditions of the three reads, with the invariant at DONE. -/
theorem hostReadsOnlyCompleteResults : Obligations.HostReadsOnlyCompleteResults := by
  refine fun s h => ⟨fun o ho => ?_, fun x hx => ?_, fun hr ch x y => ?_⟩
  · obtain ⟨hp, ho⟩ := Option.ite_none_right_eq_some.1 ho
    cases ho
    exact ⟨hp, rfl, (h.done hp).outcome_ne_none⟩
  · obtain ⟨⟨hp, hop, hout⟩, hx⟩ := Option.ite_none_right_eq_some.1 hx
    have hlen := (h.done hp).textLen hop hout
    rw [hlen, List.take_length] at hx
    cases hx
    exact ⟨hp, hop, hout, rfl, hlen.symm, fun c hc => toNat_le_of_ne_terminator (h.text c hc)⟩
  · exact if_neg fun hs => running_iff_not_ready.1 hr hs.1

end Sys2Proof.Machine

/-! PROOFS. What a step can change: PHASE by the rows of the table, OUTCOME at an end, one cell and two transactions in
a visit, and what a reset leaves (spec/00_scope.md section 2, spec/42_sequencing.md section 1,
spec/70_reset_and_hazards.md section 1). -/

namespace Sys2Proof.Machine

/-! ## Ends and transitions -/

theorem afterConsume_stop {r : State × Bool} (h : r.2 = true) : afterConsume r = finishFound r.1 := if_pos h

theorem afterConsume_go {r : State × Bool} (h : r.2 = false) : afterConsume r = { r.1 with phase := .advance } :=
  if_neg (Bool.eq_false_iff.1 h)

/-- All that the Scanning step of EMBED can change: PHASE and OUTCOME. -/
theorem scanEmbed_frame (s : State) :
    scanEmbed s = { s with phase := (scanEmbed s).phase, outcome := (scanEmbed s).outcome } := by
  unfold scanEmbed
  split
  · rfl
  · split <;> rfl

/-- All that the Scanning step of EXTRACT can change: PHASE, OUTCOME and the text. -/
theorem scanExtract_frame (s : State) :
    scanExtract s = { s with
      phase := (scanExtract s).phase
      outcome := (scanExtract s).outcome
      text := (scanExtract s).text
      textLen := (scanExtract s).textLen } := by
  unfold scanExtract
  split <;> rfl

/-- All that can follow EXTRACT's visit: a change of PHASE, OUTCOME and TEXT_LEN. -/
theorem afterConsume_frame (r : State × Bool) :
    afterConsume r = { r.1 with
      phase := (afterConsume r).phase
      outcome := (afterConsume r).outcome
      textLen := (afterConsume r).textLen } := by
  unfold afterConsume
  split <;> rfl

@[simp] theorem scanEmbed_grid (s : State) : (scanEmbed s).grid = s.grid := by rw [scanEmbed_frame]
@[simp] theorem scanEmbed_log (s : State) : (scanEmbed s).log = s.log := by rw [scanEmbed_frame]
@[simp] theorem scanEmbed_host (s : State) : (scanEmbed s).host = s.host := by rw [scanEmbed_frame]
@[simp] theorem scanExtract_grid (s : State) : (scanExtract s).grid = s.grid := by rw [scanExtract_frame]
@[simp] theorem scanExtract_log (s : State) : (scanExtract s).log = s.log := by rw [scanExtract_frame]
@[simp] theorem scanExtract_host (s : State) : (scanExtract s).host = s.host := by rw [scanExtract_frame]
@[simp] theorem afterConsume_grid (r : State × Bool) : (afterConsume r).grid = r.1.grid := by rw [afterConsume_frame]
@[simp] theorem afterConsume_log (r : State × Bool) : (afterConsume r).log = r.1.log := by rw [afterConsume_frame]
@[simp] theorem afterConsume_host (r : State × Bool) : (afterConsume r).host = r.1.host := by rw [afterConsume_frame]

theorem decodeRule_phase (s : State) : (decodeRule s).phase = .done := by
  unfold decodeRule; split <;> rfl

theorem decodeRule_outcome (s : State) : (decodeRule s).outcome = .success ∨ (decodeRule s).outcome = .notFound := by
  unfold decodeRule; split
  · exact .inl rfl
  · exact .inr rfl

/-- All a command can do: its accept rule, or nothing while an operation runs. -/
theorem exec_cases {i : Instr} {s t : State} (h : exec i s = .next t) :
    (s.Ready ∧ t = acceptRule i { s with op := i }) ∨ (¬s.Ready ∧ t = s) := by
  by_cases hr : s.Ready
  · rw [exec_ready hr] at h
    exact .inl ⟨hr, (Host.Outcome.next.inj h).symm⟩
  · rw [exec_busy hr] at h
    exact .inr ⟨hr, (Host.Outcome.next.inj h).symm⟩

theorem acceptRule_embed (s : State) : acceptRule .embed s = embedRule s := rfl

/-- Acceptance goes to the row of the command (R180, R181). -/
theorem acceptRule_move (s : State) (host : List HostAction) (i : Instr) :
    CommandMove s (acceptRule i { s with host, op := i }) i := by
  cases i with
  | encode => exact .encode rfl rfl
  | decode => exact .decode (decodeRule_phase _) (decodeRule_outcome _)
  | embed =>
    by_cases hlt : s.grid.w * s.grid.h < s.bitsLen
    · have hfail : acceptRule .embed { s with host, op := .embed } = finish _ .capacityExceeded := if_pos hlt
      rw [hfail]
      exact .embedFails hlt rfl rfl
    · have hpass : acceptRule .embed { s with host, op := .embed } = startScan _ := if_neg hlt
      rw [hpass]
      exact .embedPasses (Nat.not_lt.1 hlt) rfl
  | extract => exact .extract rfl

/-- EXTRACT's visit takes the row that its cell's bit decides (R166, R180). -/
theorem extractVisit_move {s u : State} {b : Bool} (hp : s.phase = .readOrWrite) (ho : s.op = .extract)
    (hacc : u.acc = s.acc) (hcnt : u.cnt = s.cnt) (hlt : s.cnt.toNat < 7) (hb : b = parity (s.cell s.x s.y)) :
    PhaseMove s (afterConsume (consume u b)) := by
  have hstop : (consume u b).2 = true ↔ s.CompletesTerminator := by
    rw [consume_stops_iff, hacc, hcnt, hb]
  cases hc : (consume u b).2 with
  | false =>
    rw [afterConsume_go hc]
    exact .extractVisited hp ho (mt hstop.2 (Bool.eq_false_iff.1 hc)) rfl
  | true =>
    rw [afterConsume_stop hc]
    refine .extractFound hp ho (hstop.1 hc) ?_ rfl rfl
    rcases consume_cases (hcnt ▸ hlt) b with ⟨-, h⟩ | ⟨-, -, h⟩ | ⟨-, -, h⟩ <;> rw [h] at hc ⊢
    · cases hc
    · cases hc
    · rfl

/-- Settles O35: the transitions of the sequencer and acceptance each take their row, and nothing else moves PHASE. -/
theorem phaseChangesOnlyByTheTable : Obligations.PhaseChangesOnlyByTheTable := by
  intro s t h hst hne
  rcases step_cases hst with ⟨hs, hseq⟩ | ⟨c, rest, hh, hexec⟩ | ⟨hr, -, heq⟩ | ⟨rest, rfl⟩ | ⟨rest, hh, rfl⟩
  · rcases sequencer_cases hseq with ⟨-, rfl⟩ | ⟨hp, ho, rfl⟩ | ⟨hp, ho, rfl⟩ | ⟨hp, ho, hhas, rfl⟩ |
      ⟨hp, ho, hhas, rfl⟩ | ⟨hp, rfl⟩
    · exact absurd rfl hne
    · by_cases hends : s.bitsLen = 0 ∨ s.idx + 1 = s.bitsLen
      · rw [scanEmbed_of_ends (s := { s with host := hs }) hends]
        exact .embedEnds hp ho hends rfl rfl
      · have hx := embed_not_exhausted h.pointer (h.embed (.inl hp) ho) hp hends
        rw [scanEmbed_of_visit (s := { s with host := hs }) hends hx]
        exact .visit hp (.inl ho) (fun he => hends he.2) hx (has_of_scanning h.pointer hp hx) rfl
    · by_cases hx : s.Exhausted
      · rw [scanExtract_of_exhausted (s := { s with host := hs }) hx]
        exact .extractEnds hp ho hx rfl rfl
      · rw [scanExtract_of_visit (s := { s with host := hs }) hx]
        exact .visit hp (.inr ho) (fun he => nomatch he.1.symm.trans ho) hx (has_of_scanning h.pointer hp hx) rfl
    · exact .embedVisited hp ho rfl
    · exact extractVisit_move hp ho rfl rfl h.cnt rfl
    · exact .advanced hp (advance_phase _)
  · rcases exec_cases hexec with ⟨hr, rfl⟩ | ⟨-, rfl⟩
    · exact .command c rest hr hh (acceptRule_move s rest _)
    · exact absurd rfl hne
  · exact absurd (by rw [heq]) hne
  · exact absurd rfl hne
  · obtain ⟨g, l, heq, -⟩ := resetAct_cases { s with host := rest }
    exact .reset rest hh (by rw [heq]; rfl)

/-! ## OUTCOME -/

/-- A transition of the sequencer leaves OUTCOME alone, or ends the operation with SUCCESS or NOT_FOUND. -/
theorem sequencer_outcome {s t : State} (h : sequencer s = .next t) :
    t.outcome = s.outcome ∨ (t.phase = .done ∧ (t.outcome = .success ∨ t.outcome = .notFound)) := by
  rcases sequencer_cases h with ⟨-, rfl⟩ | ⟨-, -, rfl⟩ | ⟨-, -, rfl⟩ | ⟨-, -, -, rfl⟩ | ⟨-, -, -, rfl⟩ | ⟨-, rfl⟩
  · exact .inl rfl
  · unfold scanEmbed
    split
    · exact .inr ⟨rfl, .inl rfl⟩
    · split
      · exact .inr ⟨rfl, .inl rfl⟩
      · exact .inl rfl
  · unfold scanExtract
    split
    · exact .inr ⟨rfl, .inr rfl⟩
    · exact .inl rfl
  · exact .inl rfl
  · unfold afterConsume
    split
    · exact .inr ⟨rfl, .inl rfl⟩
    · exact .inl (consume_outcome _ _)
  · exact .inl (advance_outcome s)

/-- Acceptance leaves OUTCOME alone and starts a scan, or ends the operation with a result. -/
theorem acceptRule_outcome (i : Instr) (s : State) :
    (acceptRule i s).outcome = s.outcome ∨ ((acceptRule i s).phase = .done ∧ (acceptRule i s).outcome ≠ .none) := by
  cases i with
  | encode => exact .inr ⟨rfl, nofun⟩
  | decode =>
    refine .inr ⟨decodeRule_phase s, fun hn => ?_⟩
    rcases decodeRule_outcome s with h | h <;> cases hn.symm.trans h
  | embed =>
    rw [acceptRule_embed, embedRule]
    split
    · exact .inr ⟨rfl, nofun⟩
    · exact .inl rfl
  | extract => exact .inl rfl

/-- Settles O36, by what a step can do. -/
theorem outcomeChangesOnlyAtAnEnd : Obligations.OutcomeChangesOnlyAtAnEnd := by
  intro s t hst hne
  rcases step_cases hst with ⟨hs, hseq⟩ | ⟨c, rest, -, hexec⟩ | ⟨-, -, heq⟩ | ⟨rest, rfl⟩ | ⟨rest, hh, rfl⟩
  · rcases sequencer_outcome hseq with hsame | ⟨hp, hres⟩
    · exact absurd hsame hne
    · refine .inl ⟨hp, fun hn => ?_⟩
      rcases hres with hres | hres <;> cases hn.symm.trans hres
  · rcases exec_cases hexec with ⟨-, rfl⟩ | ⟨-, rfl⟩
    · exact .inl ((acceptRule_outcome _ _).resolve_left hne)
    · exact absurd rfl hne
  · exact absurd (by rw [heq]) hne
  · exact absurd rfl hne
  · obtain ⟨g, l, heq, -⟩ := resetAct_cases { s with host := rest }
    exact .inr ⟨by rw [heq]; rfl, by rw [heq]; rfl, rest, hh⟩

/-! ## Transactions -/

theorem decodeRule_log (s : State) : (decodeRule s).log = s.log := by
  unfold decodeRule
  split <;> simp

theorem acceptRule_log (i : Instr) (s : State) : (acceptRule i s).log = s.log := by
  cases i with
  | encode => rfl
  | decode => exact decodeRule_log s
  | embed => rw [acceptRule_embed, embedRule]; split <;> rfl
  | extract => rfl

/-- The transactions of an EMBED visit: a get, or a get and a set of a value that differs by exactly 1 (R58, R155). -/
theorem visitAccesses_cases (chsel x y : Nat) (v : Byte) (b : Bool) (l : List Access) :
    (visitAccesses chsel x y v b).reverse ++ l = .get chsel x y v :: l ∨
    ∃ v' : Byte, (v'.toNat = v.toNat + 1 ∨ v.toNat = v'.toNat + 1) ∧
      (visitAccesses chsel x y v b).reverse ++ l = .set chsel x y v' :: .get chsel x y v :: l := by
  unfold visitAccesses
  rcases parityFlip_cases v b with ⟨-, heq⟩ | ⟨-, hmove⟩
  · exact .inl (by rw [if_pos heq]; rfl)
  · have hne : parityFlip v b ≠ v := fun he => by rw [he] at hmove; omega
    exact .inr ⟨_, hmove, by rw [if_neg hne]; rfl⟩

/-- Settles O38: of all a step can do only a visit, and a reset that finds one done, issue transactions. -/
theorem stepIssuesAtMostOneGetAndOneSet : Obligations.StepIssuesAtMostOneGetAndOneSet := by
  intro s t hst
  rcases step_cases hst with ⟨hs, hseq⟩ | ⟨c, rest, -, hexec⟩ | ⟨-, -, heq⟩ | ⟨rest, rfl⟩ | ⟨rest, hh, rfl⟩
  · rcases sequencer_cases hseq with ⟨-, rfl⟩ | ⟨-, -, rfl⟩ | ⟨-, -, rfl⟩ | ⟨hp, ho, hhas, rfl⟩ |
      ⟨hp, -, hhas, rfl⟩ | ⟨-, rfl⟩
    · exact .inl rfl
    · exact .inl (scanEmbed_log _)
    · exact .inl (scanExtract_log _)
    · refine .inr ⟨.inr (.inl hp), hhas, .inl hp, s.cell s.x s.y, ?_⟩
      exact (visitAccesses_cases s.chsel s.x s.y (s.cell s.x s.y) (s.bitAt s.idx) s.log).imp_right (⟨ho, ·⟩)
    · refine .inr ⟨.inr (.inl hp), hhas, .inl hp, s.cell s.x s.y, .inl ?_⟩
      rw [afterConsume_log, consume_log]
      rfl
    · exact .inl (advance_log _)
  · rcases exec_cases hexec with ⟨-, rfl⟩ | ⟨-, rfl⟩
    · exact .inl (acceptRule_log _ _)
    · exact .inl rfl
  · exact .inl (by rw [heq])
  · exact .inl rfl
  · obtain ⟨g, l, heq, ⟨-, hl⟩ | ⟨⟨ho, hp, -⟩, hhas, -, hl⟩⟩ := resetAct_cases { s with host := rest }
    · exact .inl (by rw [heq]; exact hl)
    · refine .inr ⟨hp.imp_right .inl, hhas, .inr ⟨rest, hh⟩, s.cell s.x s.y, ?_⟩
      rw [heq, hl]
      exact (visitAccesses_cases s.chsel s.x s.y (s.cell s.x s.y) (s.bitAt s.idx) s.log).imp_right (⟨ho, ·⟩)

/-! ## Cells -/

@[simp] theorem visitedGrid_selectors (s : State) (x y : Nat) : (visitedGrid s x y).selectors = s.grid.selectors := by
  unfold visitedGrid; split <;> rfl

/-- The sequencer changes the grid in EMBED's visit only (R161, R168). -/
theorem sequencer_grid {s t : State} (h : sequencer s = .next t) :
    t.grid = s.grid ∨ (s.phase = .readOrWrite ∧ s.op = .embed ∧ t.grid = visitedGrid s s.x s.y) := by
  rcases sequencer_cases h with ⟨-, rfl⟩ | ⟨-, -, rfl⟩ | ⟨-, -, rfl⟩ | ⟨hp, ho, -, rfl⟩ | ⟨-, -, -, rfl⟩ | ⟨-, rfl⟩
  · exact .inl rfl
  · exact .inl (scanEmbed_grid s)
  · exact .inl (scanExtract_grid s)
  · exact .inr ⟨hp, ho, rfl⟩
  · exact .inl (by rw [afterConsume_grid, consume_grid]; rfl)
  · exact .inl (advance_grid s)

/-- Settles O39: the grid is as before, or the pointed cell was visited. -/
theorem sequencerChangesOnlyThePointedCell : Obligations.SequencerChangesOnlyThePointedCell := by
  intro s t h
  rcases sequencer_grid h with hg | ⟨hp, ho, hg⟩ <;> rw [hg]
  · exact ⟨rfl, rfl, rfl, fun _ _ _ _ => rfl⟩
  · refine ⟨visitedGrid_w .., visitedGrid_h .., visitedGrid_selectors .., fun ch x y hne => visitedGrid_read_ne s ?_⟩
    rintro ⟨rfl, rfl, rfl⟩
    exact hne ⟨hp, ho, rfl, rfl, rfl⟩

/-- A visit changes the cells only. -/
theorem visitedGrid_eq (s : State) (x y : Nat) :
    visitedGrid s x y = { s.grid with cells := (visitedGrid s x y).cells } := by
  unfold visitedGrid
  split <;> rfl

/-- EMBED still has a bit to write where one more than IDX is below BITS_LEN. -/
theorem lt_of_midWrite {s : State} (h : s.MidWrite) : s.idx + 1 < s.bitsLen := by
  obtain ⟨-, -, hidx⟩ := h
  simp only [stopCount, Config.preserveLastBitDefect, if_true] at hidx
  omega

/-- Settles O43: the grid after a reset is as before, or with the interrupted visit of the pointed cell done. -/
theorem resetAbandonsTheOperation : Obligations.ResetAbandonsTheOperation := by
  intro s rest hcells hh
  obtain ⟨g, l, heq, hg⟩ := resetAct_cases { s with host := rest }
  refine ⟨_, (step_of_host hh).trans (congrArg Host.Outcome.next heq), ?_⟩
  rcases hg with ⟨rfl, -⟩ | ⟨hmid, -, rfl, -⟩
  · exact ⟨rfl, fun _ _ _ _ => rfl, .inl rfl⟩
  · have hlt := lt_of_midWrite hmid
    obtain ⟨ho, hp, -⟩ := hmid
    refine ⟨?_, fun ch x y hne => visitedGrid_read_ne _ ?_,
      .inr (visitedGrid_read_same (s := { s with host := rest }) hcells _ _)⟩
    · rw [visitedGrid_eq]; rfl
    · rintro ⟨rfl, rfl, rfl⟩
      exact hne ⟨ho, hp, hlt, rfl, rfl, rfl⟩

end Sys2Proof.Machine

/-! PROOFS. What no rule reads, and progress: leftovers of an earlier operation, the list of transactions, and the count
of transitions to DONE (spec/10_state.md sections 3, 7 and 8, spec/42_sequencing.md section 1). -/

namespace Sys2Proof.Machine

/-! ## Changes outside the decoder -/

/-- `f` changes nothing that the decoder reads, and leaves what the decoder writes alone. -/
structure OutsideDecoder (f : State → State) : Prop where
  acc : ∀ s, (f s).acc = s.acc
  cnt : ∀ s, (f s).cnt = s.cnt
  text : ∀ s, (f s).text = s.text
  setDecoder : ∀ s a c t, f (s.setDecoder a c t) = (f s).setDecoder a c t

theorem consume_outside {f : State → State} (hf : OutsideDecoder f) (s : State) (b : Bool) :
    consume (f s) b = (f (consume s b).1, (consume s b).2) := by
  unfold consume
  rw [hf.acc, hf.cnt, hf.text]
  split
  · rw [hf.setDecoder]
  · split <;> rw [hf.setDecoder]

theorem consumeAll_outside {f : State → State} (hf : OutsideDecoder f) (bs : List Bool) (s : State) :
    consumeAll (f s) bs = (f (consumeAll s bs).1, (consumeAll s bs).2) := by
  induction bs generalizing s with
  | nil => rfl
  | cons b bs ih =>
    rw [consumeAll, consumeAll, consume_outside hf]
    split
    · rfl
    · exact ih _

/-! ## Leftovers of an earlier operation -/

/-- DECODE clears the decoder and writes TEXT_LEN and OUTCOME, so it uses none of them (R41, R118). -/
theorem decodeRule_leftovers (s : State) (acc : Group) (cnt : BitVec 3) (text : List Group) (len : Nat) (o : Result) :
    decodeRule { s with acc, cnt, text, textLen := len, outcome := o } = decodeRule s := by
  have hall := consumeAll_outside (f := fun u => { u with textLen := len, outcome := o })
    ⟨fun _ => rfl, fun _ => rfl, fun _ => rfl, fun _ _ _ _ => rfl⟩ s.bitsSeq (clearDecoder s)
  have hcons : consumeAll (clearDecoder { s with acc, cnt, text, textLen := len, outcome := o })
      (State.bitsSeq { s with acc, cnt, text, textLen := len, outcome := o }) = _ := hall
  unfold decodeRule
  rw [hcons]
  split <;> rfl

theorem scanEmbed_outcome_unused (s : State) (o : Result) :
    (scanEmbed s).phase = .done ∧ scanEmbed { s with outcome := o } = scanEmbed s ∨
    (scanEmbed s).phase ≠ .done ∧ scanEmbed { s with outcome := o } = { scanEmbed s with outcome := o } := by
  by_cases hends : s.bitsLen = 0 ∨ s.idx + 1 = s.bitsLen
  · rw [scanEmbed_of_ends hends, scanEmbed_of_ends (s := { s with outcome := o }) hends]
    exact .inl ⟨rfl, rfl⟩
  · by_cases hx : s.Exhausted
    · rw [scanEmbed_of_exhausted hx, scanEmbed_of_exhausted (s := { s with outcome := o }) hx]
      exact .inl ⟨rfl, rfl⟩
    · rw [scanEmbed_of_visit hends hx, scanEmbed_of_visit (s := { s with outcome := o }) hends hx]
      exact .inr ⟨nofun, rfl⟩

theorem scanExtract_outcome_unused (s : State) (o : Result) :
    (scanExtract s).phase = .done ∧ scanExtract { s with outcome := o } = scanExtract s ∨
    (scanExtract s).phase ≠ .done ∧ scanExtract { s with outcome := o } = { scanExtract s with outcome := o } := by
  by_cases hx : s.Exhausted
  · rw [scanExtract_of_exhausted hx, scanExtract_of_exhausted (s := { s with outcome := o }) hx]
    exact .inl ⟨rfl, rfl⟩
  · rw [scanExtract_of_visit hx, scanExtract_of_visit (s := { s with outcome := o }) hx]
    exact .inr ⟨nofun, rfl⟩

theorem afterConsume_outcome_unused (s : State) (b : Bool) (o : Result) :
    (afterConsume (consume s b)).phase = .done ∧
      afterConsume (consume { s with outcome := o } b) = afterConsume (consume s b) ∨
    (afterConsume (consume s b)).phase ≠ .done ∧
      afterConsume (consume { s with outcome := o } b) = { afterConsume (consume s b) with outcome := o } := by
  rw [consume_outside (f := fun u => { u with outcome := o })
    ⟨fun _ => rfl, fun _ => rfl, fun _ => rfl, fun _ _ _ _ => rfl⟩ s b]
  cases hc : (consume s b).2 with
  | true => rw [afterConsume_stop hc]; exact .inl ⟨rfl, rfl⟩
  | false => rw [afterConsume_go hc]; exact .inr ⟨nofun, rfl⟩

theorem advance_outcome_unused (s : State) (o : Result) :
    advance { s with outcome := o } = { advance s with outcome := o } := by
  unfold advance
  split <;> rfl

/-- A transition that ends a running operation is the same from any OUTCOME, and any other but for OUTCOME (R27). -/
theorem sequencer_outcome_unused {s t : State} (o : Result) (h : sequencer s = .next t) :
    (s.Running ∧ t.phase = .done ∧ sequencer { s with outcome := o } = .next t) ∨
    (¬(s.Running ∧ t.phase = .done) ∧ sequencer { s with outcome := o } = .next { t with outcome := o }) := by
  rcases sequencer_cases h with ⟨hr, rfl⟩ | ⟨hp, ho, rfl⟩ | ⟨hp, ho, rfl⟩ | ⟨hp, ho, hh, rfl⟩ | ⟨hp, ho, hh, rfl⟩ |
    ⟨hp, rfl⟩
  · exact .inr ⟨fun hn => running_iff_not_ready.1 hn.1 hr, sequencer_ready (s := { t with outcome := o }) hr⟩
  · have hseq := sequencer_scanEmbed (s := { s with outcome := o }) hp ho
    rcases scanEmbed_outcome_unused s o with ⟨hd, heq⟩ | ⟨hd, heq⟩ <;> rw [heq] at hseq
    · exact .inl ⟨.inl hp, hd, hseq⟩
    · exact .inr ⟨fun hn => hd hn.2, hseq⟩
  · have hseq := sequencer_scanExtract (s := { s with outcome := o }) hp ho
    rcases scanExtract_outcome_unused s o with ⟨hd, heq⟩ | ⟨hd, heq⟩ <;> rw [heq] at hseq
    · exact .inl ⟨.inl hp, hd, hseq⟩
    · exact .inr ⟨fun hn => hd hn.2, hseq⟩
  · exact .inr ⟨fun hn => (nomatch hn.2), sequencer_visitEmbed (s := { s with outcome := o }) hp ho hh⟩
  · have hseq := sequencer_visitExtract (s := { s with outcome := o }) hp ho hh
    rcases afterConsume_outcome_unused { s.record (.get s.chsel s.x s.y (s.cell s.x s.y)) with idx := s.idx + 1 }
      (parity (s.cell s.x s.y)) o with ⟨hd, heq⟩ | ⟨hd, heq⟩
    · exact .inl ⟨.inr (.inl hp), hd, hseq.trans (congrArg Host.Outcome.next heq)⟩
    · exact .inr ⟨fun hn => hd hn.2, hseq.trans (congrArg Host.Outcome.next heq)⟩
  · have hseq := sequencer_advance (s := { s with outcome := o }) hp
    rw [advance_outcome_unused] at hseq
    exact .inr ⟨fun hn => (nomatch (advance_phase s).symm.trans hn.2), hseq⟩

/-- Settles O40: each accept rule overwrites the registers named, and OUTCOME is written only at an end. -/
theorem leftoverRegistersAreNeverUsed : Obligations.LeftoverRegistersAreNeverUsed := by
  refine ⟨fun s x y idx acc cnt text bits len o p hs => ⟨?_, ?_, fun hlt => ?_, fun hle t ht => ?_, fun t ht => ?_⟩,
    fun s t o h => ?_⟩
  · rw [exec_encode hs]
    exact exec_encode (s := { s with bits, bitsLen := len, outcome := o, op := p }) hs
  · rw [exec_ready hs .decode]
    refine (exec_ready (s := { s with acc, cnt, text, textLen := len, outcome := o, op := p }) hs .decode).trans ?_
    exact congrArg _ (decodeRule_leftovers { s with op := .decode } acc cnt text len o)
  · rw [exec_embed_of_lt hs hlt]
    exact exec_embed_of_lt (s := { s with outcome := o, op := p }) hs hlt
  · rw [exec_embed_of_le hs hle] at ht
    cases ht
    exact exec_embed_of_le (s := { s with x, y, idx, outcome := o, op := p }) hs hle
  · rw [exec_extract hs] at ht
    cases ht
    exact exec_extract (s := { s with x, y, idx, acc, cnt, text, outcome := o, op := p }) hs
  · rcases sequencer_outcome_unused o h with ⟨hr, hd, hseq⟩ | ⟨hn, hseq⟩
    · exact ⟨fun _ => hseq, fun hno => absurd ⟨hr, hd⟩ hno⟩
    · exact ⟨fun hd => absurd hd hn, fun _ => hseq⟩

/-! ## The list of transactions -/

theorem scanEmbed_withLog (s : State) (l : List Access) :
    scanEmbed { s with log := l } = { scanEmbed s with log := l } := by
  unfold scanEmbed
  split <;> [rfl; split <;> rfl]

theorem scanExtract_withLog (s : State) (l : List Access) :
    scanExtract { s with log := l } = { scanExtract s with log := l } := by
  unfold scanExtract
  split <;> rfl

theorem advance_withLog (s : State) (l : List Access) : advance { s with log := l } = { advance s with log := l } := by
  unfold advance
  split <;> rfl

theorem outsideDecoder_withLog (l : List Access) : OutsideDecoder fun u => { u with log := l } :=
  ⟨fun _ => rfl, fun _ => rfl, fun _ => rfl, fun _ _ _ _ => rfl⟩

theorem afterConsume_withLog (r : State × Bool) (l : List Access) :
    afterConsume ({ r.1 with log := l }, r.2) = { afterConsume r with log := l } := by
  unfold afterConsume
  split <;> rfl

theorem decodeRule_withLog (s : State) (l : List Access) :
    decodeRule { s with log := l } = { decodeRule s with log := l } := by
  have hcons : consumeAll (clearDecoder { s with log := l }) (State.bitsSeq { s with log := l }) = _ :=
    consumeAll_outside (outsideDecoder_withLog l) s.bitsSeq (clearDecoder s)
  unfold decodeRule
  rw [hcons]
  split <;> rfl

theorem acceptRule_withLog (i : Instr) (s : State) (l : List Access) :
    acceptRule i { s with log := l } = { acceptRule i s with log := l } := by
  cases i with
  | encode => rfl
  | decode => exact decodeRule_withLog s l
  | embed => rw [acceptRule_embed, acceptRule_embed, embedRule, embedRule]; split <;> rfl
  | extract => rfl

/-- States that differ in the list of transactions only are the same without it. -/
theorem forgetLog_next {t u : State} (l : List Access) (h : t = { u with log := l }) :
    forgetLog (.next t) = forgetLog (.next u) := by
  rw [h]; rfl

theorem exec_forgetLog (i : Instr) (s : State) (l : List Access) :
    forgetLog (exec i { s with log := l }) = forgetLog (exec i s) := by
  by_cases hs : s.Ready
  · rw [exec_ready hs, exec_ready (s := { s with log := l }) hs]
    exact forgetLog_next l (acceptRule_withLog i { s with op := i } l)
  · rw [exec_busy hs, exec_busy (s := { s with log := l }) hs]
    rfl

theorem sequencer_noScanning {s : State} (hp : s.phase = .scanning ∨ s.phase = .readOrWrite)
    (ho : s.op = .encode ∨ s.op = .decode) : sequencer s = .fault .noScanningOperation := by
  unfold sequencer scanning readOrWrite
  rcases hp with hp | hp <;> rcases ho with ho | ho <;> simp only [hp, ho]

theorem sequencer_outside {s : State} (hp : s.phase = .readOrWrite) (ho : s.op = .embed ∨ s.op = .extract)
    (hh : ¬s.grid.Has s.x s.y) : sequencer s = .fault .outsideGrid := by
  unfold sequencer readOrWrite
  rcases ho with ho | ho
  · simp only [hp, ho, readOrWriteEmbed, visitEmbed_eq_none.2 hh, Option.map_none, orFault]
  · simp only [hp, ho, readOrWriteExtract, visitExtract_eq_none.2 hh, Option.map_none, orFault]

theorem phase_cases (s : State) : s.Ready ∨ s.phase = .scanning ∨ s.phase = .readOrWrite ∨ s.phase = .advance := by
  rw [State.Ready]
  cases s.phase <;> decide

theorem instr_cases (i : Instr) : (i = .encode ∨ i = .decode) ∨ i = .embed ∨ i = .extract := by
  cases i <;> decide

theorem sequencer_forgetLog (s : State) (l : List Access) :
    forgetLog (sequencer { s with log := l }) = forgetLog (sequencer s) := by
  rcases phase_cases s with hs | hp | hp | hp
  · rw [sequencer_ready hs, sequencer_ready (s := { s with log := l }) hs]
    rfl
  · rcases instr_cases s.op with ho | ho | ho
    · rw [sequencer_noScanning (.inl hp) ho, sequencer_noScanning (s := { s with log := l }) (.inl hp) ho]
    · rw [sequencer_scanEmbed hp ho, sequencer_scanEmbed (s := { s with log := l }) hp ho]
      exact forgetLog_next l (scanEmbed_withLog s l)
    · rw [sequencer_scanExtract hp ho, sequencer_scanExtract (s := { s with log := l }) hp ho]
      exact forgetLog_next l (scanExtract_withLog s l)
  · rcases instr_cases s.op with ho | ho
    · rw [sequencer_noScanning (.inr hp) ho, sequencer_noScanning (s := { s with log := l }) (.inr hp) ho]
    · by_cases hh : s.grid.Has s.x s.y
      · rcases ho with ho | ho
        · rw [sequencer_visitEmbed hp ho hh, sequencer_visitEmbed (s := { s with log := l }) hp ho hh]
          rfl
        · rw [sequencer_visitExtract hp ho hh, sequencer_visitExtract (s := { s with log := l }) hp ho hh]
          refine forgetLog_next (.get s.chsel s.x s.y (s.cell s.x s.y) :: l) ?_
          rw [← afterConsume_withLog, ← consume_outside (outsideDecoder_withLog _)]
          rfl
      · rw [sequencer_outside hp ho hh, sequencer_outside (s := { s with log := l }) hp ho hh]
  · rw [sequencer_advance hp, sequencer_advance (s := { s with log := l }) hp]
    exact forgetLog_next l (advance_withLog s l)

theorem hostAct_forgetLog (s : State) (l : List Access) {f : State → Host.Outcome State Fault Refusal}
    (h : forgetLog (f { s with log := l }) = forgetLog (f s)) :
    forgetLog (hostAct { s with log := l } f) = forgetLog (hostAct s f) := by
  unfold hostAct
  split
  · exact h
  · rfl

theorem hostWriteCell_forgetLog (ch x y : Nat) (v : Byte) (s : State) (l : List Access) :
    forgetLog (hostWriteCell ch x y v { s with log := l }) = forgetLog (hostWriteCell ch x y v s) := by
  unfold hostWriteCell
  split <;> rfl

theorem resetAct_forgetLog (s : State) (l : List Access) :
    forgetLog (.next (resetAct { s with log := l })) = forgetLog (.next (resetAct s)) := by
  unfold resetAct
  split
  · by_cases hh : s.grid.Has s.x s.y
    · rw [visitEmbed_eq_embedVisit hh, visitEmbed_eq_embedVisit (s := { s with log := l }) hh]
      rfl
    · rw [visitEmbed_eq_none.2 hh, visitEmbed_eq_none (s := { s with log := l }) |>.2 hh]
      rfl
  · rfl

theorem hostStep_forgetLog (a : HostAction) (rest : List HostAction) (s : State) (l : List Access) :
    forgetLog (hostStep a rest { s with log := l }) = forgetLog (hostStep a rest s) := by
  cases a
  case writeCmd c => exact exec_forgetLog _ { s with host := rest } l
  case writeStatus => rfl
  case tick => exact sequencer_forgetLog { s with host := rest } l
  case reset => exact resetAct_forgetLog { s with host := rest } l
  case awaitDone =>
    rw [hostStep, hostStep]
    split
    · rfl
    · exact sequencer_forgetLog s l
  case writeCell ch x y v =>
    exact hostAct_forgetLog { s with host := rest } l (hostWriteCell_forgetLog ch x y v { s with host := rest } l)
  all_goals
    rw [hostStep, hostStep]
    exact hostAct_forgetLog { s with host := rest } l rfl

/-- Settles O41: neither the sequencer nor any action of the host reads the list. -/
theorem transactionListIsNeverRead : Obligations.TransactionListIsNeverRead := by
  intro s l
  rcases eq_or_ne s.host [] with hh | hne
  · rw [step_of_no_host hh, step_of_no_host (s := { s with log := l }) hh]
    exact sequencer_forgetLog s l
  · obtain ⟨a, rest, hh⟩ := List.exists_cons_of_ne_nil hne
    rw [step_of_host hh, step_of_host (s := { s with log := l }) hh]
    exact hostStep_forgetLog a rest s l

/-! ## Progress -/

/-- `n` steps lead from `s` to `u`, an operation running in every state before `u`. -/
def RunsTo (n : Nat) (s u : State) : Prop :=
  run n s = .next u ∧ ∀ k, k < n → ∃ m, run k s = .next m ∧ m.Running

theorem RunsTo.refl (s : State) : RunsTo 0 s s := ⟨run_zero s, nofun⟩

/-- One transition of a running operation before a run. -/
theorem RunsTo.head {s t u : State} {n : Nat} (hq : s.Quiet) (hr : s.Running) (h : sequencer s = .next t)
    (ht : RunsTo n t u) : RunsTo (n + 1) s u := by
  have hst : step s = .next t := (step_quiet hq hr).trans h
  refine ⟨(run_succ hst n).trans ht.1, fun k hk => ?_⟩
  cases k with
  | zero => exact ⟨s, run_zero s, hr⟩
  | succ k =>
    obtain ⟨m, hm, hmr⟩ := ht.2 k (Nat.lt_of_succ_lt_succ hk)
    exact ⟨m, (run_succ hst k).trans hm, hmr⟩

theorem RunsTo.trans {s t u : State} {n m : Nat} (hn : RunsTo n s t) (hm : RunsTo m t u) : RunsTo (n + m) s u := by
  refine ⟨(run_add hn.1 m).trans hm.1, fun k hk => ?_⟩
  rcases Nat.lt_or_ge k n with hlt | hge
  · exact hn.2 k hlt
  · obtain ⟨w, hw, hwr⟩ := hm.2 (k - n) (by omega)
    exact ⟨w, by rw [← hw, ← run_add hn.1, Nat.add_sub_cancel' hge], hwr⟩

/-- The transitions a running operation has left, at most: three for each pixel not yet counted, and a last one. -/
def transitionsLeft (s : State) : Nat :=
  match s.phase with
  | .scanning => 3 * (s.grid.capacity - s.idx) + 1
  | .readOrWrite => 3 * (s.grid.capacity - s.idx)
  | .advance => 3 * (s.grid.capacity - s.idx) + 2
  | .idle => 0
  | .done => 0

theorem transitionsLeft_scanning {s : State} (hp : s.phase = .scanning) :
    transitionsLeft s = 3 * (s.grid.capacity - s.idx) + 1 := by rw [transitionsLeft, hp]
theorem transitionsLeft_visiting {s : State} (hp : s.phase = .readOrWrite) :
    transitionsLeft s = 3 * (s.grid.capacity - s.idx) := by rw [transitionsLeft, hp]
theorem transitionsLeft_advance {s : State} (hp : s.phase = .advance) :
    transitionsLeft s = 3 * (s.grid.capacity - s.idx) + 2 := by rw [transitionsLeft, hp]

theorem sequencer_host {s t : State} (h : sequencer s = .next t) : t.host = s.host := by
  rcases sequencer_cases h with ⟨-, rfl⟩ | ⟨-, -, rfl⟩ | ⟨-, -, rfl⟩ | ⟨-, -, -, rfl⟩ | ⟨-, -, -, rfl⟩ | ⟨-, rfl⟩
  · rfl
  · exact scanEmbed_host s
  · exact scanExtract_host s
  · rfl
  · rw [afterConsume_host, consume_host]; rfl
  · exact advance_host s

/-- A visited pixel leaves IDX below the number of cells. -/
theorem idx_lt_of_visiting {s : State} (h : PointerInv s) (hp : s.phase = .readOrWrite) : s.idx < s.grid.capacity := by
  obtain ⟨⟨hx, hy⟩, hidx⟩ := h.visiting hp
  exact hidx ▸ index_lt hx hy

/-- A transition of a running operation ends it, or leaves fewer transitions (R184). -/
theorem sequencer_progress {s t : State} (h : Inv s) (hr : s.Running) (hst : sequencer s = .next t) :
    t.phase = .done ∨ (t.Running ∧ transitionsLeft t < transitionsLeft s) := by
  rcases sequencer_cases hst with ⟨hs, -⟩ | ⟨hp, -, rfl⟩ | ⟨hp, -, rfl⟩ | ⟨hp, -, -, rfl⟩ | ⟨hp, -, -, rfl⟩ | ⟨hp, rfl⟩
  · exact absurd hs (running_iff_not_ready.1 hr)
  · have hleft := transitionsLeft_scanning hp
    unfold scanEmbed
    split
    · exact .inl rfl
    · split
      · exact .inl rfl
      · exact .inr ⟨.inr (.inl rfl), by rw [hleft, transitionsLeft_visiting rfl]; exact Nat.lt_succ_self _⟩
  · have hleft := transitionsLeft_scanning hp
    unfold scanExtract
    split
    · exact .inl rfl
    · exact .inr ⟨.inr (.inl rfl), by rw [hleft, transitionsLeft_visiting rfl]; exact Nat.lt_succ_self _⟩
  · have hidx := idx_lt_of_visiting h.pointer hp
    refine .inr ⟨.inr (.inr rfl), ?_⟩
    rw [transitionsLeft_visiting hp, transitionsLeft_advance rfl, visitedGrid_capacity]
    show 3 * (s.grid.capacity - (s.idx + 1)) + 2 < _
    omega
  · have hidx := idx_lt_of_visiting h.pointer hp
    unfold afterConsume
    split
    · exact .inl rfl
    · refine .inr ⟨.inr (.inr rfl), ?_⟩
      rw [transitionsLeft_visiting hp, transitionsLeft_advance rfl]
      simp only [consume_grid, consume_idx, record_grid]
      omega
  · refine .inr ⟨.inl (advance_phase s), ?_⟩
    rw [transitionsLeft_advance hp, transitionsLeft_scanning (advance_phase s), advance_grid, advance_idx]
    exact Nat.lt_succ_self _

/-- From the invariant a transition of the sequencer answers a state. -/
theorem Inv.sequencer_next {s : State} (h : Inv s) : ∃ t, sequencer s = .next t := by
  cases hs : sequencer s with
  | next t => exact ⟨t, rfl⟩
  | fault r => exact absurd hs (h.sequencer_ne_fault r)
  | refused r => exact absurd hs (sequencer_not_refused s r)

theorem transitionsLeft_pos {s : State} (h : Inv s) (hr : s.Running) : 0 < transitionsLeft s := by
  rcases hr with hp | hp | hp
  · rw [transitionsLeft_scanning hp]; exact Nat.succ_pos _
  · have := idx_lt_of_visiting h.pointer hp
    rw [transitionsLeft_visiting hp]
    omega
  · rw [transitionsLeft_advance hp]; exact Nat.succ_pos _

/-- A running operation reaches DONE within the transitions it has left. -/
theorem runsTo_done {s : State} {n : Nat} (h : Inv s) (hr : s.Running) (hq : s.Quiet) (hn : transitionsLeft s ≤ n) :
    ∃ k u, k ≤ n ∧ RunsTo k s u ∧ u.phase = .done := by
  induction n generalizing s with
  | zero => exact absurd hn (Nat.not_le.2 (transitionsLeft_pos h hr))
  | succ n ih =>
    obtain ⟨t, ht⟩ := h.sequencer_next
    rcases sequencer_progress h hr ht with hdone | ⟨htr, hlt⟩
    · exact ⟨1, t, Nat.succ_le_succ (Nat.zero_le n), .head hq hr ht (.refl t), hdone⟩
    · have htq : t.Quiet := by rw [State.Quiet, sequencer_host ht]; exact hq
      obtain ⟨k, u, hk, hrun, hu⟩ := ih (sequencer_inv h ht) htr htq (Nat.le_of_lt_succ (Nat.lt_of_lt_of_le hlt hn))
      exact ⟨k + 1, u, Nat.succ_le_succ hk, .head hq hr ht hrun, hu⟩

/-- In ADVANCE a pixel is counted, so no running operation has more transitions left than at the start of a scan. -/
theorem transitionsLeft_le {s : State} (h : Inv s) (hr : s.Running) :
    transitionsLeft s ≤ 3 * (s.grid.w * s.grid.h) + 1 := by
  show _ ≤ 3 * s.grid.capacity + 1
  rcases hr with hp | hp | hp
  · rw [transitionsLeft_scanning hp]; omega
  · rw [transitionsLeft_visiting hp]; omega
  · obtain ⟨⟨hx, hy⟩, hidx⟩ := h.pointer.advancing hp
    have hlt : s.x * s.grid.h + s.y < s.grid.capacity := index_lt hx hy
    rw [transitionsLeft_advance hp]
    omega

/-- Settles O37: each transition leaves fewer, and at first at most three for each pixel and one are left. -/
theorem everyRunningOperationReachesDone : Obligations.EveryRunningOperationReachesDone := by
  intro s h hr hq
  obtain ⟨n, u, hn, ⟨hrun, hbefore⟩, hu⟩ := runsTo_done h hr hq (transitionsLeft_le h hr)
  exact ⟨n, u, hn, hrun, hu, hbefore⟩

end Sys2Proof.Machine

/-! PROOFS. EMBED from acceptance to DONE: its transitions against the loop form and the function form
(spec/41_carrier_codec.md sections 2 and 4). -/

namespace Sys2Proof.Machine

/-! ## The pointer as a function of IDX -/

/-- `s` in SCANNING with the pointer at the pixel of linear index IDX (R141). -/
def State.scanAt (s : State) : State := { s with x := s.idx / s.grid.h, y := s.idx % s.grid.h, phase := .scanning }

/-- In SCANNING the pointer is a function of IDX, where the grid has a row. -/
theorem PointerInv.eq_scanAt {s : State} (h : PointerInv s) (hp : s.phase = .scanning) (hh : 0 < s.grid.h) :
    s = s.scanAt := by
  obtain ⟨hidx, -, hy, -⟩ := h.scanning hp
  rw [Nat.max_eq_left hh] at hy
  have hlinear : s.y + s.grid.h * s.x = s.idx := by rw [← hidx, Nat.mul_comm, Nat.add_comm]
  obtain ⟨hdiv, hmod⟩ := (Nat.div_mod_unique hh).2 ⟨hlinear, hy⟩
  rw [State.scanAt, hdiv, hmod, ← hp]

theorem startScan_eq_scanAt (s : State) : startScan s = State.scanAt { s with idx := 0 } := by
  simp [startScan, State.scanAt]

theorem advance_eq_scanAt {s : State} (hh : s.grid.Has s.x s.y) (hidx : s.x * s.grid.h + s.y + 1 = s.idx) :
    advance s = s.scanAt := by
  have hpos : 0 < (advance s).grid.h := by rw [advance_grid]; exact Nat.zero_lt_of_lt hh.2
  refine ((advance_pointer hh hidx).eq_scanAt (advance_phase s) hpos).trans ?_
  unfold advance
  split <;> rfl

/-! ## The scan from a linear index on -/

theorem scanOrder_getElem? {w h k : Nat} (hk : k < w * h) : (scanOrder w h)[k]? = some (k / h, k % h) :=
  (scanOrderIsColumnMajor w h).2 k hk

theorem scanOrder_drop {w h k : Nat} (hk : k < w * h) :
    (scanOrder w h).drop k = (k / h, k % h) :: (scanOrder w h).drop (k + 1) := by
  obtain ⟨hlt, hget⟩ := List.getElem?_eq_some_iff.1 (scanOrder_getElem? hk)
  rw [List.drop_eq_getElem_cons hlt, hget]

theorem scanOrder_take_succ {w h k : Nat} (hk : k < w * h) :
    (scanOrder w h).take (k + 1) = (scanOrder w h).take k ++ [(k / h, k % h)] := by
  rw [List.take_add_one, scanOrder_getElem? hk]
  rfl

/-! ## EMBED's visits one after the other -/

/-- EMBED's visit of the pixel of linear index IDX. -/
def embedNext (s : State) : State := embedVisit s (s.idx / s.grid.h) (s.idx % s.grid.h)

/-- A visit changes IDX, the cells and the list of transactions. -/
theorem embedNext_frame (s : State) :
    embedNext s = { s with
      idx := s.idx + 1
      grid := { s.grid with cells := (embedNext s).grid.cells }
      log := (embedNext s).log } :=
  congrArg (fun g : Grid => { embedNext s with grid := g }) (visitedGrid_eq s _ _)

theorem embedNext_iterate_frame (j : Nat) (s : State) :
    embedNext^[j] s = { s with
      idx := s.idx + j
      grid := { s.grid with cells := (embedNext^[j] s).grid.cells }
      log := (embedNext^[j] s).log } := by
  induction j with
  | zero => rfl
  | succ j ih =>
    rw [Function.iterate_succ_apply']
    refine (embedNext_frame _).trans ?_
    generalize embedNext (embedNext^[j] s) = v
    rw [ih]
    rfl

/-- What every number of visits keeps (R42). -/
structure SameOperands (s v : State) : Prop where
  op : v.op = s.op
  bitsLen : v.bitsLen = s.bitsLen
  host : v.host = s.host
  w : v.grid.w = s.grid.w
  h : v.grid.h = s.grid.h

theorem embedNext_iterate_operands (j : Nat) (s : State) : SameOperands s (embedNext^[j] s) := by
  rw [embedNext_iterate_frame j s]
  exact ⟨rfl, rfl, rfl, rfl, rfl⟩

theorem embedNext_iterate_idx (j : Nat) (s : State) : (embedNext^[j] s).idx = s.idx + j :=
  congrArg State.idx (embedNext_iterate_frame j s)

/-! ## The transitions of one visit, and of all -/

/-- Scanning, ReadOrWrite and Advance at one pixel of EMBED. -/
theorem embed_pixel_runsTo {s : State} (ho : s.op = .embed) (hq : s.Quiet) (hlt : s.idx + 1 < s.bitsLen)
    (hfits : s.bitsLen ≤ s.grid.w * s.grid.h) : RunsTo 3 s.scanAt (embedNext s).scanAt := by
  have hh : s.grid.Has (s.idx / s.grid.h) (s.idx % s.grid.h) := has_of_lt (by omega)
  have hends : ¬(s.bitsLen = 0 ∨ s.idx + 1 = s.bitsLen) := by omega
  have hx : ¬s.scanAt.Exhausted := not_or.2 ⟨(Nat.zero_lt_of_lt hh.2).ne', hh.1.ne⟩
  have hscan := (sequencer_scanEmbed (s := s.scanAt) rfl ho).trans (congrArg _ (scanEmbed_of_visit hends hx))
  have hvisit := sequencer_visitEmbed (s := { s.scanAt with phase := .readOrWrite }) rfl ho hh
  have hadv := sequencer_advance (s := { embedVisit { s.scanAt with phase := .readOrWrite } (s.idx / s.grid.h)
    (s.idx % s.grid.h) with phase := .advance }) rfl
  rw [advance_eq_scanAt] at hadv
  · exact .head hq (.inl rfl) hscan (.head hq (.inr (.inl rfl)) hvisit (.head hq (.inr (.inr rfl)) hadv (.refl _)))
  · simpa [embedVisit, Grid.Has, State.scanAt] using hh
  · simp [embedVisit, State.scanAt, Nat.div_add_mod']

/-- The first `j` visits of EMBED are `3j` transitions. -/
theorem embedNext_iterate_runsTo {s : State} (ho : s.op = .embed) (hq : s.Quiet) (hidx : s.idx = 0)
    (hfits : s.bitsLen ≤ s.grid.w * s.grid.h) {j : Nat} (hj : j ≤ s.bitsLen - 1) :
    RunsTo (3 * j) s.scanAt (embedNext^[j] s).scanAt := by
  induction j with
  | zero => exact .refl _
  | succ j ih =>
    have hsame := embedNext_iterate_operands j s
    have hlast := embed_pixel_runsTo (hsame.op.trans ho) (by rw [State.Quiet, hsame.host]; exact hq)
      (by rw [embedNext_iterate_idx, hsame.bitsLen]; omega) (by rw [hsame.bitsLen, hsame.w, hsame.h]; exact hfits)
    rw [Function.iterate_succ_apply']
    exact (ih (Nat.le_of_succ_le hj)).trans hlast

/-- The state after all of EMBED's visits, from an accepted EMBED. -/
def embedded (s : State) : State := embedNext^[s.bitsLen - 1] { s with op := .embed, idx := 0 }

theorem embedded_operands (s : State) : SameOperands { s with op := .embed, idx := 0 } (embedded s) :=
  embedNext_iterate_operands _ _

theorem embedded_ends (s : State) : (embedded s).bitsLen = 0 ∨ (embedded s).idx + 1 = (embedded s).bitsLen := by
  have hidx : (embedded s).idx = 0 + (s.bitsLen - 1) := embedNext_iterate_idx _ _
  rw [hidx, (embedded_operands s).bitsLen]
  show s.bitsLen = 0 ∨ 0 + (s.bitsLen - 1) + 1 = s.bitsLen
  omega

/-- EMBED's whole run, from acceptance. -/
theorem exec_embed_runsTo {s : State} (hs : s.Ready) (hq : s.Quiet) (hfits : s.bitsLen ≤ s.grid.w * s.grid.h) :
    ∃ t, exec .embed s = .next t ∧ RunsTo (3 * (s.bitsLen - 1) + 1) t (finish (embedded s).scanAt .success) := by
  refine ⟨_, exec_embed_of_le hs hfits, ?_⟩
  rw [startScan_eq_scanAt]
  have hlast := (sequencer_scanEmbed (s := (embedded s).scanAt) rfl (embedded_operands s).op).trans
    (congrArg _ (scanEmbed_of_ends (embedded_ends s)))
  have hquiet : (embedded s).scanAt.Quiet := by
    show (embedded s).Quiet
    rw [State.Quiet, (embedded_operands s).host]
    exact hq
  exact (embedNext_iterate_runsTo (s := { s with op := .embed, idx := 0 }) rfl hq rfl hfits le_rfl).trans
    (.head hquiet (.inl rfl) hlast (.refl _))

/-! ## The loop form -/

/-- The loop stops where EMBED does, whatever pixels are to come. -/
theorem embedLoop_of_ends {s : State} (h : s.bitsLen = 0 ∨ s.idx + 1 = s.bitsLen) (ps : List (Nat × Nat)) :
    embedLoop ps s = some (finish s .success) := by
  cases ps with
  | nil => rfl
  | cons p ps => exact if_pos ((embed_ends_iff s).2 h)

theorem embedLoop_of_visit {s : State} (h : ¬(s.bitsLen = 0 ∨ s.idx + 1 = s.bitsLen)) {x y : Nat} (hh : s.grid.Has x y)
    (ps : List (Nat × Nat)) : embedLoop ((x, y) :: ps) s = embedLoop ps (embedVisit s x y) := by
  refine (if_neg (mt (embed_ends_iff s).1 h)).trans ?_
  rw [visitEmbed_eq_embedVisit hh]
  rfl

theorem embedLoop_iterate {s : State} (hidx : s.idx = 0) (hfits : s.bitsLen ≤ s.grid.w * s.grid.h) {j : Nat}
    (hj : j ≤ s.bitsLen - 1) :
    embedLoop (scanOrder s.grid.w s.grid.h) s =
      embedLoop ((scanOrder s.grid.w s.grid.h).drop j) (embedNext^[j] s) := by
  induction j with
  | zero => rfl
  | succ j ih =>
    have hsame := embedNext_iterate_operands j s
    have hj' : (embedNext^[j] s).idx = j := by rw [embedNext_iterate_idx, hidx, Nat.zero_add]
    have hlt : j < s.grid.w * s.grid.h := by omega
    have hh : (embedNext^[j] s).grid.Has (j / s.grid.h) (j % s.grid.h) := by
      rw [Grid.Has, hsame.w, hsame.h]
      exact has_of_lt hlt
    have hgo : ¬((embedNext^[j] s).bitsLen = 0 ∨ (embedNext^[j] s).idx + 1 = (embedNext^[j] s).bitsLen) := by
      rw [hsame.bitsLen, hj']
      omega
    rw [ih (Nat.le_of_succ_le hj), scanOrder_drop hlt, embedLoop_of_visit hgo hh, Function.iterate_succ_apply',
      embedNext, hj', hsame.h]

theorem embedLoopForm_of_le {s : State} (hfits : s.bitsLen ≤ s.grid.w * s.grid.h) :
    embedLoopForm { s with op := .embed } = some (finish (embedded s) .success) := by
  refine (if_neg (Nat.not_lt.2 hfits)).trans ?_
  exact (embedLoop_iterate (s := { s with op := .embed, idx := 0 }) rfl hfits le_rfl).trans
    (embedLoop_of_ends (embedded_ends s) _)

/-- Settles O26: both forms end in the state after all visits, finished. -/
theorem embedStepsAgreeWithItsLoop : Obligations.EmbedStepsAgreeWithItsLoop := by
  intro s hs hq
  rcases Nat.lt_or_ge (s.grid.w * s.grid.h) s.bitsLen with hlt | hfits
  · exact ⟨_, 0, _, _, exec_embed_of_lt hs hlt, run_zero _, rfl, if_pos hlt, rfl⟩
  · obtain ⟨t, ht, hrun, -⟩ := exec_embed_runsTo hs hq hfits
    exact ⟨t, _, _, _, ht, hrun, rfl, embedLoopForm_of_le hfits, rfl⟩

end Sys2Proof.Machine

/-! PROOFS. EMBED against its function form: the cells and the transactions after its visits (spec/41_carrier_codec.md
section 4). -/

namespace Sys2Proof.Machine

/-! ## The cells in linear-index order -/

@[simp] theorem cellsSeq_length (s : State) : s.cellsSeq.length = s.grid.w * s.grid.h := by simp [State.cellsSeq]

theorem cellsSeq_getElem? {s : State} {k : Nat} (hk : k < s.grid.w * s.grid.h) :
    s.cellsSeq[k]? = some (s.cell (k / s.grid.h) (k % s.grid.h)) := by
  rw [State.cellsSeq, List.getElem?_map, scanOrder_getElem? hk]
  rfl

theorem bitsSeq_getD {s : State} {k : Nat} (hk : k < s.bitsLen) (b : Bool) : s.bitsSeq.getD k b = s.bitAt k := by
  simp [State.bitsSeq, hk]

/-! ## The cells after `j` visits -/

theorem embedNext_iterate_wf {s : State} (hwf : Memory.wf s.grid.cells) (j : Nat) :
    Memory.wf (embedNext^[j] s).grid.cells := by
  induction j with
  | zero => exact hwf
  | succ j ih => rw [Function.iterate_succ_apply']; exact visitedGrid_wf ih _ _

theorem embedNext_iterate_channel (s : State) (j : Nat) : (embedNext^[j] s).channel = s.channel := by
  rw [embedNext_iterate_frame j s]
  rfl

theorem embedNext_iterate_bitAt (s : State) (j : Nat) : (embedNext^[j] s).bitAt = s.bitAt := by
  rw [embedNext_iterate_frame j s]
  rfl

/-- Channel `ch` of the pixel (x, y) is one of the first `n` cells of the scan. -/
def State.Among (s : State) (n ch x y : Nat) : Prop := ch = s.channel ∧ s.grid.Has x y ∧ x * s.grid.h + y < n

/-- The first `j + 1` cells are the first `j` and the one of linear index `j`. -/
theorem among_succ {s : State} {j ch x y : Nat} (hj : j < s.grid.w * s.grid.h) :
    s.Among (j + 1) ch x y ↔ s.Among j ch x y ∨ (s.channel = ch ∧ j / s.grid.h = x ∧ j % s.grid.h = y) := by
  have hlinear := Nat.div_add_mod' j s.grid.h
  constructor
  · rintro ⟨hch, hh, hlt⟩
    rcases Nat.lt_succ_iff_lt_or_eq.1 hlt with hlt | heq
    · exact .inl ⟨hch, hh, hlt⟩
    · have hpix : y + s.grid.h * x = j := by rw [← heq, Nat.mul_comm, Nat.add_comm]
      exact .inr ⟨hch.symm, (Nat.div_mod_unique (Nat.zero_lt_of_lt hh.2)).2 ⟨hpix, hh.2⟩⟩
  · rintro (⟨hch, hh, hlt⟩ | ⟨hch, rfl, rfl⟩)
    · exact ⟨hch, hh, Nat.lt_succ_of_lt hlt⟩
    · exact ⟨hch.symm, has_of_lt hj, by rw [hlinear]; exact Nat.lt_succ_self j⟩

theorem not_among_self (s : State) (j ch : Nat) : ¬s.Among j ch (j / s.grid.h) (j % s.grid.h) := by
  rintro ⟨-, -, hlt⟩
  rw [Nat.div_add_mod'] at hlt
  exact Nat.lt_irrefl j hlt

/-- After `j` visits the first `j` cells are flipped towards their bits, and every other channel value is as before. -/
theorem embedNext_iterate_read {s : State} (hwf : Memory.wf s.grid.cells) (hidx : s.idx = 0) {j : Nat}
    (hj : j ≤ s.grid.w * s.grid.h) (ch x y : Nat) :
    (s.Among j ch x y →
      (embedNext^[j] s).grid.read ch x y = parityFlip (s.cell x y) (s.bitAt (x * s.grid.h + y))) ∧
    (¬s.Among j ch x y → (embedNext^[j] s).grid.read ch x y = s.grid.read ch x y) := by
  induction j with
  | zero => exact ⟨fun h => absurd h.2.2 (Nat.not_lt_zero _), fun _ => rfl⟩
  | succ j ih =>
    obtain ⟨ihin, ihout⟩ := ih (Nat.le_of_succ_le hj)
    have hj' : (embedNext^[j] s).idx = j := by rw [embedNext_iterate_idx, hidx, Nat.zero_add]
    have hh := (embedNext_iterate_operands j s).h
    rw [Function.iterate_succ_apply', among_succ hj]
    by_cases hpix : s.channel = ch ∧ j / s.grid.h = x ∧ j % s.grid.h = y
    · obtain ⟨rfl, rfl, rfl⟩ := hpix
      refine ⟨fun _ => ?_, fun hno => absurd (.inr ⟨rfl, rfl, rfl⟩) hno⟩
      have hread := visitedGrid_read_same (embedNext_iterate_wf hwf j) (j / s.grid.h) (j % s.grid.h)
      rw [State.cell, embedNext_iterate_channel, embedNext_iterate_bitAt, hj', ihout (not_among_self _ _ _)] at hread
      rw [Nat.div_add_mod', embedNext, hj', hh]
      exact hread
    · have hread : (embedNext (embedNext^[j] s)).grid.read ch x y = (embedNext^[j] s).grid.read ch x y := by
        refine visitedGrid_read_ne _ ?_
        rw [embedNext_iterate_channel, hj', hh]
        exact hpix
      rw [hread, or_iff_left hpix]
      exact ⟨ihin, ihout⟩

/-! ## The transactions after `j` visits -/

/-- The transactions of EMBED's first `j` visits. -/
def State.visitsAccesses (s : State) (j : Nat) : List Access :=
  ((scanOrder s.grid.w s.grid.h).take j).zipIdx.flatMap fun p =>
    visitAccesses s.chsel p.1.1 p.1.2 (s.cell p.1.1 p.1.2) (s.bitAt p.2)

theorem visitsAccesses_succ {s : State} {j : Nat} (hj : j < s.grid.w * s.grid.h) :
    s.visitsAccesses (j + 1) = s.visitsAccesses j ++ visitAccesses s.chsel (j / s.grid.h) (j % s.grid.h)
      (s.cell (j / s.grid.h) (j % s.grid.h)) (s.bitAt j) := by
  have hlen : ((scanOrder s.grid.w s.grid.h).take j).length = j := by
    rw [List.length_take, scanOrder_length, Nat.min_eq_left hj.le]
  rw [State.visitsAccesses, scanOrder_take_succ hj, List.zipIdx_append, hlen, List.flatMap_append]
  simp [State.visitsAccesses]

/-- A visit reads the value its cell had before EMBED: no earlier visit was of that cell. -/
theorem embedNext_iterate_log {s : State} (hwf : Memory.wf s.grid.cells) (hidx : s.idx = 0) {j : Nat}
    (hj : j ≤ s.grid.w * s.grid.h) : (embedNext^[j] s).log = (s.visitsAccesses j).reverse ++ s.log := by
  induction j with
  | zero => rfl
  | succ j ih =>
    have hj' : (embedNext^[j] s).idx = j := by rw [embedNext_iterate_idx, hidx, Nat.zero_add]
    have hh := (embedNext_iterate_operands j s).h
    have hchsel : (embedNext^[j] s).chsel = s.chsel := by
      rw [embedNext_iterate_frame j s]
    have hcell : (embedNext^[j] s).cell (j / s.grid.h) (j % s.grid.h) = s.cell (j / s.grid.h) (j % s.grid.h) := by
      rw [State.cell, embedNext_iterate_channel]
      exact (embedNext_iterate_read hwf hidx (Nat.le_of_succ_le hj) _ _ _).2 (not_among_self _ _ _)
    rw [Function.iterate_succ_apply', embedNext, hj', hh, embedVisit, visitsAccesses_succ hj, List.reverse_append,
      List.append_assoc, ← ih (Nat.le_of_succ_le hj)]
    rw [hj', hchsel, hcell, embedNext_iterate_bitAt]

/-! ## All visits -/

/-- The state after all of EMBED's visits: IDX, the cells and the transactions apart, it is the state before. -/
theorem embedded_eq {s : State} (hwf : Memory.wf s.grid.cells) (hfits : s.bitsLen ≤ s.grid.w * s.grid.h) :
    ∃ cells, embedded s = { s with
        op := .embed
        idx := s.bitsLen - 1
        grid := { s.grid with cells }
        log := s.embedAccesses.reverse ++ s.log } ∧
      Memory.wf cells ∧
      ∀ ch x y,
        (s.Among (s.bitsLen - 1) ch x y →
          Grid.read { s.grid with cells } ch x y = parityFlip (s.cell x y) (s.bitAt (x * s.grid.h + y))) ∧
        (¬s.Among (s.bitsLen - 1) ch x y → Grid.read { s.grid with cells } ch x y = s.grid.read ch x y) := by
  have hle : s.bitsLen - 1 ≤ s.grid.w * s.grid.h := (Nat.sub_le ..).trans hfits
  have hframe := embedNext_iterate_frame (s.bitsLen - 1) { s with op := .embed, idx := 0 }
  have hlog := embedNext_iterate_log (s := { s with op := .embed, idx := 0 }) hwf rfl hle
  rw [hlog] at hframe
  refine ⟨(embedded s).grid.cells, hframe.trans ?_,
    embedNext_iterate_wf (s := { s with op := .embed, idx := 0 }) hwf _, fun ch x y => ?_⟩
  · rw [Nat.zero_add]
    rfl
  · exact embedNext_iterate_read (s := { s with op := .embed, idx := 0 }) hwf rfl hle ch x y

/-! ## The function form -/

/-- The cells after EMBED in linear-index order are those of the function form (R169). -/
theorem embedForm_eq {s u : State} (hfits : s.bitsLen ≤ s.grid.w * s.grid.h) (hw : u.grid.w = s.grid.w)
    (hh : u.grid.h = s.grid.h) (hch : u.channel = s.channel)
    (hread : ∀ ch x y,
      (s.Among (s.bitsLen - 1) ch x y →
        u.grid.read ch x y = parityFlip (s.cell x y) (s.bitAt (x * s.grid.h + y))) ∧
      (¬s.Among (s.bitsLen - 1) ch x y → u.grid.read ch x y = s.grid.read ch x y)) :
    embedForm s.cellsSeq s.bitsSeq = some u.cellsSeq := by
  refine (if_neg (by rw [cellsSeq_length, bitsSeq_length]; omega)).trans (congrArg some ?_)
  refine List.ext_getElem? fun k => ?_
  rw [List.getElem?_mapIdx, bitsSeq_length]
  rcases Nat.lt_or_ge k (s.grid.w * s.grid.h) with hk | hk
  · have hlinear := Nat.div_add_mod' k s.grid.h
    obtain ⟨hin, hout⟩ := hread s.channel (k / s.grid.h) (k % s.grid.h)
    rw [cellsSeq_getElem? hk, cellsSeq_getElem? (by rw [hw, hh]; exact hk), hh, State.cell.eq_def u, hch,
      Option.map_some]
    refine congrArg some ?_
    by_cases hlt : k + 1 < s.bitsLen
    · rw [if_pos hlt, bitsSeq_getD (by omega), hin ⟨rfl, has_of_lt hk, by omega⟩, hlinear]
    · rw [if_neg hlt, hout fun h => hlt (by have := h.2.2; omega)]
      rfl
  · rw [List.getElem?_eq_none (by rw [cellsSeq_length]; exact hk),
      List.getElem?_eq_none (by rw [cellsSeq_length, hw, hh]; exact hk)]
    rfl

/-- Settles O25: the run of all visits, and the cells and transactions they leave. -/
theorem embedRunsToItsFunctionForm : Obligations.EmbedRunsToItsFunctionForm := by
  refine fun s hs hq hwf => ⟨fun hlt => ⟨?_, exec_embed_of_lt hs hlt⟩, fun hfits => ?_⟩
  · exact if_pos (by rw [cellsSeq_length, bitsSeq_length]; exact hlt)
  · obtain ⟨t, ht, hrun, hbefore⟩ := exec_embed_runsTo hs hq hfits
    obtain ⟨cells, heq, -, hread⟩ := embedded_eq hwf hfits
    rw [heq] at hrun
    refine ⟨t, _, ht, hrun, hbefore, embedForm_eq hfits rfl rfl rfl hread, fun ch x y hno => (hread ch x y).2 ?_, rfl⟩
    rintro ⟨hch, hh, hlt⟩
    exact hno ⟨hch, hh, by omega⟩

end Sys2Proof.Machine

/-! PROOFS. EXTRACT from acceptance to DONE: its transitions against the loop form and the function form
(spec/41_carrier_codec.md sections 3 and 4). -/

namespace Sys2Proof.Machine

/-! ## The transitions of one visit, and of all -/

/-- EXTRACT's visit of the pixel (x, y): the state after it, but for PHASE, and whether the terminator was seen. -/
def extractVisit (s : State) (x y : Nat) : State × Bool :=
  consume { s.record (.get s.chsel x y (s.cell x y)) with idx := s.idx + 1 } (parity (s.cell x y))

theorem visitExtract_eq_extractVisit {s : State} {x y : Nat} (h : s.grid.Has x y) :
    visitExtract s x y = some (extractVisit s x y) := visitExtract_of_has h

/-- EXTRACT's visit of the pixel of linear index IDX. -/
def extractNext (s : State) : State × Bool := extractVisit s (s.idx / s.grid.h) (s.idx % s.grid.h)

section
variable (s : State)

@[simp] theorem extractNext_idx : (extractNext s).1.idx = s.idx + 1 := consume_idx _ _
@[simp] theorem extractNext_op : (extractNext s).1.op = s.op := consume_op _ _
@[simp] theorem extractNext_grid : (extractNext s).1.grid = s.grid := consume_grid _ _
@[simp] theorem extractNext_host : (extractNext s).1.host = s.host := consume_host _ _

end

/-- A visit does not read the scan pointer or PHASE. -/
theorem extractVisit_withPointer (s : State) (px py : Nat) (p : Phase) (x y : Nat) :
    extractVisit { s with x := px, y := py, phase := p } x y =
      ({ (extractVisit s x y).1 with x := px, y := py, phase := p }, (extractVisit s x y).2) :=
  consume_outside (f := fun u => { u with x := px, y := py, phase := p })
    ⟨fun _ => rfl, fun _ => rfl, fun _ => rfl, fun _ _ _ _ => rfl⟩
    { s.record (.get s.chsel x y (s.cell x y)) with idx := s.idx + 1 } _

/-- Scanning and ReadOrWrite at one pixel of EXTRACT. -/
theorem extract_pixel_runsTo {s : State} (ho : s.op = .extract) (hq : s.Quiet) (hlt : s.idx < s.grid.w * s.grid.h) :
    RunsTo 2 s.scanAt (afterConsume
      ({ (extractNext s).1 with x := s.idx / s.grid.h, y := s.idx % s.grid.h, phase := .readOrWrite },
        (extractNext s).2)) := by
  have hh : s.grid.Has (s.idx / s.grid.h) (s.idx % s.grid.h) := has_of_lt hlt
  have hx : ¬s.scanAt.Exhausted := not_or.2 ⟨(Nat.zero_lt_of_lt hh.2).ne', hh.1.ne⟩
  have hscan := (sequencer_scanExtract (s := s.scanAt) rfl ho).trans (congrArg _ (scanExtract_of_visit hx))
  have hvisit := sequencer_visitExtract (s := { s.scanAt with phase := .readOrWrite }) rfl ho hh
  rw [extractNext, ← extractVisit_withPointer]
  exact .head hq (.inl rfl) hscan (.head hq (.inr (.inl rfl)) hvisit (.refl _))

/-- The visit that sees the terminator ends EXTRACT. -/
theorem extract_pixel_stops {s : State} (ho : s.op = .extract) (hq : s.Quiet) (hlt : s.idx < s.grid.w * s.grid.h)
    (hstop : (extractNext s).2 = true) :
    RunsTo 2 s.scanAt { finishFound (extractNext s).1 with x := s.idx / s.grid.h, y := s.idx % s.grid.h } := by
  have hrun := extract_pixel_runsTo ho hq hlt
  rw [hstop] at hrun
  exact hrun

/-- Any other visit goes on at the next linear index. -/
theorem extract_pixel_goes {s : State} (ho : s.op = .extract) (hq : s.Quiet) (hlt : s.idx < s.grid.w * s.grid.h)
    (hgo : (extractNext s).2 = false) : RunsTo 3 s.scanAt (extractNext s).1.scanAt := by
  have hrun := extract_pixel_runsTo ho hq hlt
  rw [hgo] at hrun
  have hadv := sequencer_advance (s := { (extractNext s).1 with
    x := s.idx / s.grid.h, y := s.idx % s.grid.h, phase := .advance }) rfl
  rw [advance_eq_scanAt] at hadv
  · have hquiet : (extractNext s).1.Quiet := by rw [State.Quiet, extractNext_host]; exact hq
    exact hrun.trans (.head hquiet (.inr (.inr rfl)) hadv (.refl _))
  · simpa using has_of_lt hlt
  · simp [Nat.div_add_mod']

/-- The loop at an existing pixel. -/
theorem extractLoop_of_has {s : State} {p : Nat × Nat} (hp : s.grid.Has p.1 p.2) (ps : List (Nat × Nat)) :
    extractLoop (p :: ps) s =
      if (extractVisit s p.1 p.2).2 then some (finishFound (extractVisit s p.1 p.2).1)
      else extractLoop ps (extractVisit s p.1 p.2).1 := by
  rw [extractLoop, visitExtract_eq_extractVisit hp]
  rfl

/-- With no pixel left from IDX on the pointer is past the grid. -/
theorem exhausted_of_drop {s : State} (hle : s.idx ≤ s.grid.w * s.grid.h)
    (hps : (scanOrder s.grid.w s.grid.h).drop s.idx = []) : s.scanAt.Exhausted := by
  have hge := List.drop_eq_nil_iff.1 hps
  rw [scanOrder_length] at hge
  rcases Nat.eq_zero_or_pos s.grid.h with hh | hh
  · exact .inl hh
  · exact .inr (by rw [State.scanAt, Nat.le_antisymm hle hge]; exact Nat.mul_div_cancel _ hh)

/-- From the pixel of linear index IDX on, EXTRACT's transitions end as its loop over the pixels still to come, in at
most three transitions for each of them and a last one (R173, R184). -/
theorem extract_runsTo {s : State} (ho : s.op = .extract) (hq : s.Quiet) {ps : List (Nat × Nat)}
    (hle : s.idx ≤ s.grid.w * s.grid.h) (hps : (scanOrder s.grid.w s.grid.h).drop s.idx = ps) :
    ∃ n v x y, n ≤ 3 * ps.length + 1 ∧ RunsTo n s.scanAt { v with x, y } ∧ v.phase = .done ∧
      extractLoop ps s = some v := by
  induction ps generalizing s with
  | nil =>
    have hscan := (sequencer_scanExtract (s := s.scanAt) rfl ho).trans
      (congrArg _ (scanExtract_of_exhausted (exhausted_of_drop hle hps)))
    exact ⟨1, finishNotFound s, _, _, le_rfl, .head hq (.inl rfl) hscan (.refl _), rfl, rfl⟩
  | cons p ps ih =>
    have hlt : s.idx < s.grid.w * s.grid.h := by
      by_contra hge
      rw [List.drop_of_length_le (by rw [scanOrder_length]; omega)] at hps
      cases hps
    rw [scanOrder_drop hlt] at hps
    obtain ⟨rfl, hps⟩ := List.cons.inj hps
    rw [extractLoop_of_has (has_of_lt hlt), List.length_cons, ← extractNext]
    cases hstop : (extractNext s).2 with
    | true => exact ⟨2, _, _, _, by omega, extract_pixel_stops ho hq hlt hstop, rfl, rfl⟩
    | false =>
      obtain ⟨n, v, x, y, hn, hrun, hdone, hloop⟩ := ih (s := (extractNext s).1) (by simpa using ho)
        (by rw [State.Quiet, extractNext_host]; exact hq) (by simpa using hlt) (by simpa using hps)
      exact ⟨3 + n, v, x, y, by omega, (extract_pixel_goes ho hq hlt hstop).trans hrun, hdone, hloop⟩

/-- EXTRACT's whole run, from acceptance. -/
theorem exec_extract_runsTo {s : State} (hs : s.Ready) (hq : s.Quiet) :
    ∃ t n v x y, exec .extract s = .next t ∧ n ≤ 3 * (s.grid.w * s.grid.h) + 1 ∧ RunsTo n t { v with x, y } ∧
      v.phase = .done ∧ extractLoopForm { s with op := .extract } = some v := by
  obtain ⟨n, v, x, y, hn, hrun, hdone, hloop⟩ := extract_runsTo
    (s := { clearDecoder { s with op := .extract } with idx := 0 }) rfl hq (Nat.zero_le _) rfl
  rw [List.drop_zero, scanOrder_length] at hn
  exact ⟨_, n, v, x, y, (exec_extract hs).trans (congrArg _ (startScan_eq_scanAt _)), hn, hrun, hdone, hloop⟩

/-- Settles O31: both forms end in the same state but for the scan pointer. -/
theorem extractStepsAgreeWithItsLoop : Obligations.ExtractStepsAgreeWithItsLoop := by
  intro s hs hq
  obtain ⟨t, n, v, x, y, ht, -, ⟨hrun, -⟩, hdone, hloop⟩ := exec_extract_runsTo hs hq
  exact ⟨t, n, _, v, ht, hrun, hdone, hloop, rfl⟩

end Sys2Proof.Machine

/-! PROOFS. EXTRACT against its function form: the bits its loop consumes, the cells it reads and the text it finds
(spec/41_carrier_codec.md section 4, spec/40_bitstream_codec.md section 2). -/

namespace Sys2Proof.Machine

/-! ## How many bits are consumed -/

/-- How many of the bits are consumed, the terminator's last among them (R60, R120). -/
def bitsConsumed : State → List Bool → Nat
  | _, [] => 0
  | s, b :: bs => if (consume s b).2 then 1 else bitsConsumed (consume s b).1 bs + 1

theorem bitsConsumed_outside {f : State → State} (hf : OutsideDecoder f) (bs : List Bool) (s : State) :
    bitsConsumed (f s) bs = bitsConsumed s bs := by
  induction bs generalizing s with
  | nil => rfl
  | cons b bs ih => rw [bitsConsumed, bitsConsumed, consume_outside hf, ih]

theorem bitsConsumed_of_notFound {bs : List Bool} {s : State} (h : (consumeAll s bs).2 = false) :
    bitsConsumed s bs = bs.length := by
  induction bs generalizing s with
  | nil => rfl
  | cons b bs ih =>
    rw [consumeAll] at h
    rw [bitsConsumed]
    split at h
    · cases h
    · next hgo => rw [if_neg hgo, ih h, List.length_cons]

/-- The bits consumed are seven for each character and seven of the terminator. -/
theorem bitsConsumed_of_found {bs : List Bool} {s : State} (hcnt : s.cnt.toNat < 7) (h : (consumeAll s bs).2 = true) :
    7 * s.text.length + s.cnt.toNat + bitsConsumed s bs = 7 * (consumeAll s bs).1.text.length + 7 := by
  induction bs generalizing s with
  | nil => cases h
  | cons b bs ih =>
    rw [consumeAll] at h ⊢
    rw [bitsConsumed]
    cases hstop : (consume s b).2 with
    | true =>
      rcases consume_cases hcnt b with ⟨-, hc⟩ | ⟨-, -, hc⟩ | ⟨h6, -, hc⟩ <;> rw [hc] at hstop ⊢
      · cases hstop
      · cases hstop
      · rw [if_pos rfl, if_pos rfl, setDecoder_text, h6]
    | false =>
      have hcount := consume_count hcnt hstop
      simp only [hstop, Bool.false_eq_true, if_false] at h ⊢
      have := ih (consume_cnt_lt s b) h
      omega

/-! ## How many bits the recursion of R126 inspects -/

theorem bitsRead_cons (b0 b1 b2 b3 b4 b5 b6 : Bool) (rest : List Bool) :
    bitsRead (b0 :: b1 :: b2 :: b3 :: b4 :: b5 :: b6 :: rest) =
      if val7 b0 b1 b2 b3 b4 b5 b6 = 127 then 7 else 7 + bitsRead rest := by rw [bitsRead]

theorem bitsRead_of_short {bs : List Bool} (h : bs.length < 7) : bitsRead bs = bs.length := by
  unfold bitsRead
  split
  · simp only [List.length_cons] at h
    omega
  · rfl

theorem bitsRead_of_notFound {bs : List Bool} {t : List Group} (h : bitsToTextFrom bs t = none) :
    bitsRead bs = bs.length := by
  induction bs using groupInduction generalizing t with
  | short bs hlen => exact bitsRead_of_short hlen
  | group b0 b1 b2 b3 b4 b5 b6 rest ih =>
    rw [bitsToTextFrom_cons] at h
    rw [bitsRead_cons]
    split at h
    · cases h
    · next hv =>
      rw [if_neg hv, ih h]
      simp only [List.length_cons]
      omega

theorem bitsRead_of_found {bs : List Bool} {t t' : List Group} (h : bitsToTextFrom bs t = some t') :
    7 * t.length + bitsRead bs = 7 * t'.length + 7 := by
  induction bs using groupInduction generalizing t with
  | short bs hlen => rw [bitsToTextFrom_short hlen] at h; cases h
  | group b0 b1 b2 b3 b4 b5 b6 rest ih =>
    rw [bitsToTextFrom_cons] at h
    rw [bitsRead_cons]
    split at h
    · next hv => cases h; rw [if_pos hv]
    · next hv =>
      have := ih h
      rw [if_neg hv]
      simp only [List.length_append, List.length_singleton] at this
      omega

/-! ## The loop as consumption -/

/-- The bits that the cells of the pixels `ps` carry. -/
def State.bitsOf (s : State) (ps : List (Nat × Nat)) : List Bool := ps.map fun p => parity (s.cell p.1 p.2)

/-- One get of each of the pixels `ps`. -/
def State.getsOf (s : State) (ps : List (Nat × Nat)) : List Access :=
  ps.map fun p => .get s.chsel p.1 p.2 (s.cell p.1 p.2)

/-- The end of a decoding: the text found, or none. -/
def endDecoding (r : State × Bool) : State := if r.2 then finishFound r.1 else finishNotFound r.1

/-- `s` with `n` more cells counted and the gets of `ps` noted. -/
def State.counted (s : State) (n : Nat) (gets : List Access) : State → State :=
  fun u => { u with idx := s.idx + n, log := gets.reverse ++ s.log }

theorem outsideDecoder_counted (s : State) (n : Nat) (gets : List Access) : OutsideDecoder (s.counted n gets) :=
  ⟨fun _ => rfl, fun _ => rfl, fun _ => rfl, fun _ _ _ _ => rfl⟩

theorem extractVisit_eq_consume (s : State) (x y : Nat) :
    extractVisit s x y =
      (s.counted 1 [.get s.chsel x y (s.cell x y)] (consume s (parity (s.cell x y))).1,
        (consume s (parity (s.cell x y))).2) :=
  consume_outside (outsideDecoder_counted s 1 [.get s.chsel x y (s.cell x y)]) s _

theorem counted_counted (s c u : State) (a : Access) (n : Nat) (gets : List Access) :
    (s.counted 1 [a] c).counted n gets (s.counted 1 [a] u) = s.counted (n + 1) (a :: gets) u := by
  simp [State.counted, Nat.add_comm n 1, Nat.add_assoc]

/-- EXTRACT's loop consumes the bits of the pixels, counts the cells of those consumed and notes their gets (R163). -/
theorem extractLoop_eq {ps : List (Nat × Nat)} {s : State} (hps : ∀ p ∈ ps, s.grid.Has p.1 p.2) :
    extractLoop ps s = some (endDecoding
      (s.counted (bitsConsumed s (s.bitsOf ps)) (s.getsOf (ps.take (bitsConsumed s (s.bitsOf ps))))
        (consumeAll s (s.bitsOf ps)).1, (consumeAll s (s.bitsOf ps)).2)) := by
  induction ps generalizing s with
  | nil => rfl
  | cons p ps ih =>
    obtain ⟨hp, hps⟩ := List.forall_mem_cons.1 hps
    have hbits : s.bitsOf (p :: ps) = parity (s.cell p.1 p.2) :: s.bitsOf ps := rfl
    rw [extractLoop_of_has hp, hbits, extractVisit_eq_consume, consumeAll, bitsConsumed]
    cases hstop : (consume s (parity (s.cell p.1 p.2))).2 with
    | true => rfl
    | false =>
      obtain ⟨a, c, t, hc⟩ : ∃ a c t, (consume s (parity (s.cell p.1 p.2))).1 = s.setDecoder a c t :=
        ⟨_, _, _, consume_frame s _⟩
      have hout := outsideDecoder_counted s 1 [.get s.chsel p.1 p.2 (s.cell p.1 p.2)]
      have hrest := ih (s := s.counted 1 [.get s.chsel p.1 p.2 (s.cell p.1 p.2)] (s.setDecoder a c t)) hps
      rw [bitsConsumed_outside hout, consumeAll_outside hout, counted_counted] at hrest
      simp only [hc, Bool.false_eq_true, if_false]
      exact hrest

/-! ## The loop form and the function form -/

/-- From a cleared decoder the bits consumed are those the recursion of R126 inspects. -/
theorem bitsConsumed_eq_bitsRead {s : State} (ha : s.acc = 0#7) (hc : s.cnt = 0#3) (ht : s.text = []) (bs : List Bool) :
    bitsConsumed s bs = bitsRead bs := by
  cases h : bitsToTextFrom bs s.text with
  | none =>
    obtain ⟨t, hall⟩ := consumeAll_notFound bs ha hc h
    rw [bitsConsumed_of_notFound (congrArg Prod.snd hall), bitsRead_of_notFound h]
  | some t =>
    have hall := consumeAll_found bs ha hc h
    have hconsumed := bitsConsumed_of_found (s := s) (by rw [hc]; decide) (congrArg Prod.snd hall)
    have hread := bitsRead_of_found h
    rw [hall, setDecoder_text, ht, hc] at hconsumed
    rw [ht] at hread
    simp only [List.length_nil, BitVec.toNat_ofNat] at hconsumed hread
    omega

theorem has_of_mem_scanOrder {w h : Nat} {p : Nat × Nat} (hp : p ∈ scanOrder w h) : p.1 < w ∧ p.2 < h := by
  simp only [scanOrder, List.mem_flatMap, List.mem_map, List.mem_range] at hp
  obtain ⟨x, hx, y, hy, rfl⟩ := hp
  exact ⟨hx, hy⟩

/-- The loop over the whole grid consumes the cells' bits, and reads as many cells as the function form inspects. -/
theorem extractLoopForm_eq (s : State) :
    extractLoopForm s = some (endDecoding
      (State.counted { s with idx := 0 } (bitsRead (s.cellsSeq.map parity)) s.extractAccesses
        (consumeAll { clearDecoder s with idx := 0 } (s.cellsSeq.map parity)).1,
        (consumeAll { clearDecoder s with idx := 0 } (s.cellsSeq.map parity)).2)) := by
  have hbits : s.bitsOf (scanOrder s.grid.w s.grid.h) = s.cellsSeq.map parity := by
    rw [State.cellsSeq, List.map_map]
    rfl
  have hloop := extractLoop_eq (ps := scanOrder s.grid.w s.grid.h) (s := { clearDecoder s with idx := 0 })
    fun p hp => has_of_mem_scanOrder hp
  have hread : bitsConsumed { clearDecoder s with idx := 0 } (s.bitsOf (scanOrder s.grid.w s.grid.h)) = _ :=
    bitsConsumed_eq_bitsRead rfl rfl rfl _
  have hsame : State.bitsOf { clearDecoder s with idx := 0 } = s.bitsOf := rfl
  rw [hsame, hread, hbits] at hloop
  exact hloop

theorem extractLoopForm_of_found {s : State} {t : List Group} (h : extractForm s.cellsSeq = some t) :
    extractLoopForm s = some { s with
      idx := bitsRead (s.cellsSeq.map parity)
      acc := 127
      cnt := 0
      text := t
      textLen := t.length
      outcome := .success
      phase := .done
      log := s.extractAccesses.reverse ++ s.log } := by
  have hall := consumeAll_found (s.cellsSeq.map parity) (s := { clearDecoder s with idx := 0 }) rfl rfl h
  rw [extractLoopForm_eq, hall, State.counted, Nat.zero_add]
  rfl

theorem extractLoopForm_of_notFound {s : State} (h : extractForm s.cellsSeq = none) :
    extractLoopForm s = some { s with
      idx := bitsRead (s.cellsSeq.map parity)
      acc := leftover (s.cellsSeq.map parity)
      cnt := BitVec.ofNat 3 ((s.cellsSeq.map parity).length % 7)
      text := []
      textLen := 0
      outcome := .notFound
      phase := .done
      log := s.extractAccesses.reverse ++ s.log } := by
  obtain ⟨t, hall⟩ :=
    consumeAll_notFound (s.cellsSeq.map parity) (s := { clearDecoder s with idx := 0 }) rfl rfl h
  rw [extractLoopForm_eq, hall, State.counted, Nat.zero_add]
  rfl

/-- Settles O30: the run ends as the loop form, which is the function form with the cells it inspects. -/
theorem extractRunsToItsFunctionForm : Obligations.ExtractRunsToItsFunctionForm := by
  intro s hs hq
  obtain ⟨t, n, v, x, y, ht, hn, ⟨hrun, hbefore⟩, -, hloop⟩ := exec_extract_runsTo hs hq
  refine ⟨t, n, _, ht, hn, hrun, hbefore, ?_⟩
  cases hform : extractForm s.cellsSeq with
  | some found =>
    rw [extractLoopForm_of_found (s := { s with op := .extract }) hform] at hloop
    cases hloop
    exact ⟨fun t' ht' => by cases ht'; exact ⟨rfl, rfl, rfl⟩, nofun, rfl⟩
  | none =>
    rw [extractLoopForm_of_notFound (s := { s with op := .extract }) hform] at hloop
    cases hloop
    exact ⟨nofun, fun _ => ⟨rfl, rfl⟩, rfl⟩

end Sys2Proof.Machine

/-! PROOFS. HIDE and REVEAL: host programs that write a command and wait for it (spec/42_sequencing.md section 2,
spec/41_carrier_codec.md section 4). -/

namespace Sys2Proof.Machine

/-! ## Commands one after the other -/

/-- Some number of steps leads from `s` to `u`. -/
def Reaches (s u : State) : Prop := ∃ n, run n s = .next u

theorem Reaches.trans {s t u : State} : Reaches s t → Reaches t u → Reaches s u
  | ⟨n, hn⟩, ⟨m, hm⟩ => ⟨n + m, (run_add hn m).trans hm⟩

/-- A command written and waited for: acceptance, the operation's run to DONE, and the end of the wait (R187). -/
theorem reaches_command {s t u : State} {i : Instr} {rest : List HostAction}
    (hh : s.host = .writeCmd (encode i) :: .awaitDone :: rest)
    (hexec : exec i { s with host := .awaitDone :: rest } = .next t) (hrun : Reaches t u)
    (hp : u.phase = .done) (hu : u.host = .awaitDone :: rest) : Reaches s { u with host := rest } := by
  have hfirst : step s = .next t := by rw [step_writeCmd hh, decodeCmd_encode, hexec]
  have hlast : step u = .next { u with host := rest } := step_await hu (.inr hp)
  exact .trans ⟨1, (run_succ hfirst 0).trans (run_zero t)⟩ (hrun.trans ⟨1, (run_succ hlast 0).trans (run_zero _)⟩)

/-- The state after ENCODE, with the host's actions after it. -/
def encoded (s : State) (rest : List HostAction) : State :=
  { s with
    op := .encode
    bits := textToBits s.payloadSeq
    bitsLen := 7 * (keep s.payloadSeq).length + 13
    outcome := .success
    phase := .done
    freeBits := s.freeBits + 1
    host := rest }

theorem reaches_encoded {s : State} {rest : List HostAction} (hs : s.Ready)
    (hh : s.host = .writeCmd (encode .encode) :: .awaitDone :: rest) : Reaches s (encoded s rest) :=
  reaches_command hh (exec_encode (s := { s with host := .awaitDone :: rest }) hs) ⟨0, run_zero _⟩ rfl rfl

/-- After ENCODE the bits EMBED and DECODE read are the encoded payload. -/
theorem encoded_bitsSeq (s : State) (rest : List HostAction) : (encoded s rest).bitsSeq = textToBits s.payloadSeq := by
  have hlen := textToBits_length s.payloadSeq
  rw [(loadedBuffersReadBack (encoded s rest)).2 hlen.ge]
  exact List.take_of_length_le hlen.le

/-! ## HIDE -/

/-- Settles O34: ENCODE leaves a bitstream longer than the grid, and EMBED refuses it untouched. -/
theorem hideNeedsTheWholeLength : Obligations.HideNeedsTheWholeLength := by
  intro s rest hs hh hlt
  have hembed := exec_embed_of_lt (s := encoded s (.awaitDone :: rest)) (.inr rfl) hlt
  obtain ⟨n, hn⟩ := (reaches_encoded hs hh).trans (reaches_command rfl hembed ⟨0, run_zero _⟩ rfl rfl)
  exact ⟨n, _, hn, rfl, rfl, rfl, rfl, rfl, rfl, rfl⟩

theorem embedForm_eq_some {g g' : List Byte} {bits : List Bool} (h : embedForm g bits = some g') :
    bits.length ≤ g.length ∧
      g' = g.mapIdx fun k v => if k + 1 < bits.length then parityFlip v (bits.getD k false) else v := by
  unfold embedForm at h
  split at h
  · cases h
  · next hfits => exact ⟨Nat.not_lt.1 hfits, (Option.some.inj h).symm⟩

/-- A cell of the written region carries its bit (R169). -/
theorem embedForm_parity {g g' : List Byte} {bits : List Bool} (h : embedForm g bits = some g') {k : Nat}
    (hk : k + 1 < bits.length) : (g'[k]?).map parity = bits[k]? := by
  obtain ⟨hfits, rfl⟩ := embedForm_eq_some h
  have hg : k < g.length := by omega
  have hb : k < bits.length := by omega
  rw [List.getElem?_mapIdx, List.getElem?_eq_getElem hg, List.getElem?_eq_getElem hb, Option.map_some, if_pos hk,
    Option.map_some, parity_parityFlip, List.getD_eq_getElem _ _ hb]

/-- A later cell keeps its value. -/
theorem embedForm_kept {g g' : List Byte} {bits : List Bool} (h : embedForm g bits = some g') {k : Nat}
    (hk : bits.length ≤ k + 1) : g'[k]? = g[k]? := by
  obtain ⟨-, rfl⟩ := embedForm_eq_some h
  simp [Nat.not_lt.2 hk]

/-- What HIDE leaves: DONE with SUCCESS, and the bitstream but its last bit in the parities of the first cells. -/
structure Hidden (s u : State) (rest : List HostAction) : Prop where
  host : u.host = rest
  phase : u.phase = .done
  outcome : u.outcome = .success
  carries : ∀ k, k < 7 * (keep s.payloadSeq).length + 12 → (u.cellsSeq[k]?).map parity = (textToBits s.payloadSeq)[k]?
  keeps : ∀ k, 7 * (keep s.payloadSeq).length + 12 ≤ k → u.cellsSeq[k]? = s.cellsSeq[k]?

theorem hide_reaches {s : State} {rest : List HostAction} (hs : s.Ready) (hwf : Memory.wf s.grid.cells)
    (hh : s.host = hide ++ rest) (hfits : 7 * (keep s.payloadSeq).length + 13 ≤ s.grid.w * s.grid.h) :
    ∃ u, Reaches s u ∧ Hidden s u rest := by
  obtain ⟨t, u, ht, hrun, -, hform, -, hu⟩ :=
    (embedRunsToItsFunctionForm (encoded s (.awaitDone :: rest)) (.inr rfl) (.inr rfl) hwf).2 hfits
  have hhost : u.host = .awaitDone :: rest := by rw [hu]; rfl
  have hphase : u.phase = .done := by rw [hu]
  rw [encoded_bitsSeq] at hform
  have hlen := textToBits_length s.payloadSeq
  refine ⟨_, (reaches_encoded hs hh).trans (reaches_command rfl ht ⟨_, hrun⟩ hphase hhost), ?_⟩
  exact ⟨rfl, hphase, by rw [hu], fun k hk => embedForm_parity hform (by omega),
    fun k hk => embedForm_kept hform (by omega)⟩

/-- Settles O33: EMBED's function form on the bitstream that ENCODE left. -/
theorem hideLeavesTheBitstreamInTheGrid : Obligations.HideLeavesTheBitstreamInTheGrid := by
  intro s rest hs hwf hh hfits
  obtain ⟨u, ⟨n, hn⟩, hhidden⟩ := hide_reaches hs hwf hh hfits
  exact ⟨n, u, hn, hhidden.host, hhidden.phase, hhidden.outcome, hhidden.carries, hhidden.keeps⟩

/-! ## REVEAL -/

/-- The cells HIDE leaves decode to the payload's kept characters: they carry all but the last bit (R171, R172). -/
theorem Hidden.extractForm {s u : State} {rest : List HostAction} (h : Hidden s u rest) :
    extractForm u.cellsSeq = some ((keep s.payloadSeq).map (BitVec.ofNat 7)) := by
  have hlen := textToBits_length s.payloadSeq
  have hcut : (u.cellsSeq.map parity).take (7 * (keep s.payloadSeq).length + 12) =
      (textToBits s.payloadSeq).take (7 * (keep s.payloadSeq).length + 12) := by
    refine List.ext_getElem? fun k => ?_
    rw [List.getElem?_take, List.getElem?_take]
    split
    · next hk => rw [List.getElem?_map]; exact h.carries k hk
    · rfl
  rw [Machine.extractForm, ← List.take_append_drop (7 * (keep s.payloadSeq).length + 12) (u.cellsSeq.map parity), hcut]
  exact bitsToText_textToBits_take _ (by omega) _

/-- Settles O32: REVEAL finds the text that the hidden cells decode to. -/
theorem revealAfterHideFindsThePayload : Obligations.RevealAfterHideFindsThePayload := by
  intro s rest hs hwf hh hfits
  rw [List.append_assoc] at hh
  obtain ⟨u, hreach, hhidden⟩ := hide_reaches hs hwf hh hfits
  obtain ⟨t, n, v, ht, -, hrun, -, hfound, -, hv⟩ :=
    extractRunsToItsFunctionForm { u with host := .awaitDone :: rest } (.inr hhidden.phase) (.inr rfl)
  obtain ⟨hout, htext, hlen⟩ := hfound _ hhidden.extractForm
  have hphase : v.phase = .done := by rw [hv]
  have hop : v.op = .extract := by rw [hv]
  have hhost : v.host = .awaitDone :: rest := by rw [hv]
  obtain ⟨m, hm⟩ := hreach.trans (reaches_command hhidden.host ht ⟨n, hrun⟩ hphase hhost)
  rw [List.length_map] at hlen
  refine ⟨m, _, hm, rfl, hphase, hop, hout, htext, hlen, ?_⟩
  refine (if_pos ⟨hphase, .inr hop, hout⟩).trans (congrArg some ?_)
  show v.text.take v.textLen = _
  rw [htext, hlen, List.take_of_length_le (by rw [List.length_map])]

end Sys2Proof.Machine
